-- ==== Sys2Proof/Word.lean ====
section
/-! DEFINITION. The word types of the U8V block (spec/00_scope.md R5, R6). Bit 0 is the least significant bit of every
value and every value is unsigned. -/

namespace Sys2Proof

/-- A data byte, and the `dat` field of a beat (R60). -/
abbrev Byte := BitVec 8

/-- A state code (`STW` = 4 bits, R70) or an opcode (4 bits, R60, R19). -/
abbrev Code := BitVec 4

/-- A row of the transition ROM: `ROWW` = 36 bits, nine fields of four (R40, R71). -/
abbrev Row := BitVec 36

/-- The twelve wires of `in_beat`: `BEATW` = 12 (R26, R60). -/
abbrev Wires := BitVec 12

end Sys2Proof
end

