-- ==== Sys2Proof/Config.lean ====
section
/-! DEFINITION. The two open parameters of spec/00_scope.md R5. `LENW` is an argument of the model: every instance carries
its own (`State.lenw`), every operation works at any width, and only the default stands here. `FASTPATH` has the value
below in the machine's meanings and is an argument of the shared operations. The other parameters of R5 (`NROWS` 256,
`NSTATES` 9, `ERR_CODE` 0, `STW` 4, `ROWW` 36, `BEATW` 12) are fixed by the spec and stand in the types and codes. -/

namespace Sys2Proof.Config

/-- The default of `LENW`, the width of `POS`, `LA` and `R_LEN` (R5, D6). Log entry 2. -/
abbrev defaultLenw : Nat := 32

/-- `FASTPATH`: fixed to false, as U8 allows; only the ghost count `NLK` depends on it (R135). Log entry 3. -/
abbrev fastpath : Bool := false

end Sys2Proof.Config
end

