-- ==== Sys2Proof/Syntax.lean ====
section
/-! DEFINITION. The instructions: one constructor for every mnemonic of spec/opcode_table.json, and the two word formats
of that table. `B12` is the beat of R60; `BYTE8` is a data byte named by its class (R73), which reaches the block as the
operand of a `BYTE` beat. Ignored operand bits (R63) are kept in the constructor, so that no bit of a word is lost. -/

namespace Sys2Proof

/-- An instruction of U8V. The first ten are the commands of R61, the next six the reserved opcodes of R64, the last
thirteen the byte classes of R73, each with the rule of spec/40_transition_table.md that gives its row. -/
inductive Instr where
  /-- `NOP`, R120; `dat` ignored. -/
  | nop (dat : Byte)
  /-- `WF`, R150; `dat` ignored. -/
  | wf (dat : Byte)
  /-- `CHK`, R151; `dat` ignored. -/
  | chk (dat : Byte)
  /-- `MSL`, R165; `dat` ignored. -/
  | msl (dat : Byte)
  /-- `SINIT`, R180; `dat` ignored. -/
  | sinit (dat : Byte)
  /-- `SCHK`, R181; `ign` is `dat[7:1]`, ignored, and `final` is `dat[0]`. -/
  | schk (ign : BitVec 7) (final : Bool)
  /-- `BYTE`, R122. -/
  | byte (b : Byte)
  /-- `END`, R128; `dat` ignored. -/
  | endTx (dat : Byte)
  /-- `WFCT`, R200; `dat` ignored. -/
  | wfct (dat : Byte)
  /-- `CHKCT`, R201; `dat` ignored. -/
  | chkct (dat : Byte)
  /-- Reserved opcode 0x8, R64. -/
  | reserved8 (dat : Byte)
  /-- Reserved opcode 0xB, R64. -/
  | reservedB (dat : Byte)
  /-- Reserved opcode 0xC, R64. -/
  | reservedC (dat : Byte)
  /-- Reserved opcode 0xD, R64. -/
  | reservedD (dat : Byte)
  /-- Reserved opcode 0xE, R64. -/
  | reservedE (dat : Byte)
  /-- Reserved opcode 0xF, R64. -/
  | reservedF (dat : Byte)
  /-- Class `ASCII`, 00-7F, R101. -/
  | ascii (b : Byte)
  /-- Class `CONT_A`, 80-8F, R102. -/
  | contA (b : Byte)
  /-- Class `CONT_B`, 90-9F, R103. -/
  | contB (b : Byte)
  /-- Class `CONT_C`, A0-BF, R104. -/
  | contC (b : Byte)
  /-- Class `BAD_C0`, C0-C1, R105. -/
  | badC0 (b : Byte)
  /-- Class `LEAD2`, C2-DF, R106. -/
  | lead2 (b : Byte)
  /-- Class `LEAD3_E0`, E0, R107. -/
  | lead3E0
  /-- Class `LEAD3`, E1-EC and EE-EF, R108. -/
  | lead3 (b : Byte)
  /-- Class `LEAD3_ED`, ED, R109. -/
  | lead3ED
  /-- Class `LEAD4_F0`, F0, R110. -/
  | lead4F0
  /-- Class `LEAD4`, F1-F3, R111. -/
  | lead4 (b : Byte)
  /-- Class `LEAD4_F4`, F4, R112. -/
  | lead4F4
  /-- Class `BAD_F5`, F5-FF, R113. -/
  | badF5 (b : Byte)
  deriving DecidableEq, Repr

/-- A word as the opcode table writes it: in format `B12` all twelve wires, in format `BYTE8` the data byte alone, which
stands for the `BYTE` beat that carries it. Log entry 5. -/
inductive Beat where
  | b12 (w : Wires)
  | byte8 (b : Byte)
  deriving DecidableEq, Repr

/-- What `in_beat` carries for the word: `{op, dat}` (R60); a data byte travels as `0x600 | b` (R122). -/
def Beat.wires : Beat → Wires
  | .b12 w => w
  | .byte8 b => 0x6#4 ++ b

/-- The row of spec/opcode_table.json a constructor stands for, by its mnemonic. -/
def Instr.mnemonic : Instr → String
  | .nop _ => "NOP"
  | .wf _ => "WF"
  | .chk _ => "CHK"
  | .msl _ => "MSL"
  | .sinit _ => "SINIT"
  | .schk _ _ => "SCHK"
  | .byte _ => "BYTE"
  | .endTx _ => "END"
  | .wfct _ => "WFCT"
  | .chkct _ => "CHKCT"
  | .reserved8 _ => "RESERVED_8"
  | .reservedB _ => "RESERVED_B"
  | .reservedC _ => "RESERVED_C"
  | .reservedD _ => "RESERVED_D"
  | .reservedE _ => "RESERVED_E"
  | .reservedF _ => "RESERVED_F"
  | .ascii _ => "ASCII"
  | .contA _ => "CONT_A"
  | .contB _ => "CONT_B"
  | .contC _ => "CONT_C"
  | .badC0 _ => "BAD_C0"
  | .lead2 _ => "LEAD2"
  | .lead3E0 => "LEAD3_E0"
  | .lead3 _ => "LEAD3"
  | .lead3ED => "LEAD3_ED"
  | .lead4F0 => "LEAD4_F0"
  | .lead4 _ => "LEAD4"
  | .lead4F4 => "LEAD4_F4"
  | .badF5 _ => "BAD_F5"

end Sys2Proof
end

