-- ==== Sys2Proof/WellFormed.lean ====
section
/-! DEFINITION. When an instruction is well formed: a byte-class instruction holds a byte of its class (R73, the column
"bytes"). Every value of every other operand is legal (R63). -/

namespace Sys2Proof

/-- `lo <= b <= hi`: byte ranges include both ends (R6). -/
def Byte.within (lo hi b : Byte) : Bool := decide (lo ≤ b) && decide (b ≤ hi)

/-- The operand of a byte-class instruction lies in the class's range of R73. -/
def Instr.wellFormed : Instr → Bool
  | .nop _ => true
  | .wf _ => true
  | .chk _ => true
  | .msl _ => true
  | .sinit _ => true
  | .schk _ _ => true
  | .byte _ => true
  | .endTx _ => true
  | .wfct _ => true
  | .chkct _ => true
  | .reserved8 _ => true
  | .reservedB _ => true
  | .reservedC _ => true
  | .reservedD _ => true
  | .reservedE _ => true
  | .reservedF _ => true
  | .ascii b => Byte.within 0x00 0x7F b
  | .contA b => Byte.within 0x80 0x8F b
  | .contB b => Byte.within 0x90 0x9F b
  | .contC b => Byte.within 0xA0 0xBF b
  | .badC0 b => Byte.within 0xC0 0xC1 b
  | .lead2 b => Byte.within 0xC2 0xDF b
  | .lead3E0 => true
  | .lead3 b => Byte.within 0xE1 0xEC b || Byte.within 0xEE 0xEF b
  | .lead3ED => true
  | .lead4F0 => true
  | .lead4 b => Byte.within 0xF1 0xF3 b
  | .lead4F4 => true
  | .badF5 b => Byte.within 0xF5 0xFF b

end Sys2Proof
end

