-- ==== Sys2Proof/Decode.lean ====
section
/-! DEFINITION. Decoding, total on any bytes, and the encoder. A beat is `{op[3:0], dat[7:0]}` (R60); the opcode map is
R61 with the reserved opcodes of R64; operand assembly is R63; the byte classes are R73. Decoding never depends on the
block's state (R60). -/

namespace Sys2Proof

/-- `op = in_beat[11:8]` (R60). -/
def opField (w : Wires) : Code := w.extractLsb' 8 4

/-- `dat = in_beat[7:0]` (R60). -/
def datField (w : Wires) : Byte := w.extractLsb' 0 8

/-- The command of opcode `op` with operand `dat` (R61, R63, R64). -/
def decodeCommand (op : Code) (dat : Byte) : Instr :=
  if op = 0x0 then .nop dat
  else if op = 0x1 then .wf dat
  else if op = 0x2 then .chk dat
  else if op = 0x3 then .msl dat
  else if op = 0x4 then .sinit dat
  else if op = 0x5 then .schk (dat.extractLsb' 1 7) (dat.getLsbD 0)
  else if op = 0x6 then .byte dat
  else if op = 0x7 then .endTx dat
  else if op = 0x8 then .reserved8 dat
  else if op = 0x9 then .wfct dat
  else if op = 0xA then .chkct dat
  else if op = 0xB then .reservedB dat
  else if op = 0xC then .reservedC dat
  else if op = 0xD then .reservedD dat
  else if op = 0xE then .reservedE dat
  else .reservedF dat

/-- The class instruction of a data byte: the thirteen ranges of R73 in rising order. -/
def decodeClass (b : Byte) : Instr :=
  if b < 0x80 then .ascii b
  else if b < 0x90 then .contA b
  else if b < 0xA0 then .contB b
  else if b < 0xC0 then .contC b
  else if b < 0xC2 then .badC0 b
  else if b < 0xE0 then .lead2 b
  else if b = 0xE0 then .lead3E0
  else if b < 0xED then .lead3 b
  else if b = 0xED then .lead3ED
  else if b < 0xF0 then .lead3 b
  else if b = 0xF0 then .lead4F0
  else if b < 0xF4 then .lead4 b
  else if b = 0xF4 then .lead4F4
  else .badF5 b

/-- The instruction a word of either format stands for. Every word stands for one: the reserved opcodes decode to
their own constructors. -/
def decodeBeat : Beat → Instr
  | .b12 w => decodeCommand (opField w) (datField w)
  | .byte8 b => decodeClass b

/-- Why a byte string is no word of the opcode table. -/
inductive DecodeError where
  /-- No byte at all. -/
  | empty
  /-- Two bytes whose bits 15 to 12 are not zero: a beat has twelve bits (R60). -/
  | wideBeat
  /-- More than two bytes: there is no longer form (R60). -/
  | tooLong
  deriving DecidableEq, Repr

/-- The word stored in a byte string: one byte is a `BYTE8` word, two bytes are a `B12` word, the low byte first.
Log entry 6. -/
def beatOfBytes : List Byte → Except DecodeError Beat
  | [] => .error .empty
  | [b] => .ok (.byte8 b)
  | [lo, hi] => if hi.extractLsb' 4 4 = 0 then .ok (.b12 (hi.extractLsb' 0 4 ++ lo)) else .error .wideBeat
  | _ :: _ :: _ :: _ => .error .tooLong

/-- Decoding of any byte string, rejecting by name. -/
def decode (bytes : List Byte) : Except DecodeError Instr := (beatOfBytes bytes).map decodeBeat

/-- The bytes of a table word of `nbits` bits, low byte first. -/
def tableBytes (nbits w : Nat) : List Byte :=
  if nbits ≤ 8 then [BitVec.ofNat 8 w]
  else if nbits ≤ 16 then [BitVec.ofNat 8 w, BitVec.ofNat 8 (w / 256)]
  else [BitVec.ofNat 8 w, BitVec.ofNat 8 (w / 256), BitVec.ofNat 8 (w / 65536)]

/-- The instruction the decoder reads from a table word, numbered as spec/opcode_table.json numbers it. -/
def decodeTableWord (nbits w : Nat) : Option Instr :=
  if w < 2 ^ nbits then (decode (tableBytes nbits w)).toOption else none

/-- The word of an instruction, from the encodings of R61 (commands), R64 (reserved opcodes) and R73 (byte classes). -/
def encode : Instr → Beat
  | .nop dat => .b12 (0x0#4 ++ dat)
  | .wf dat => .b12 (0x1#4 ++ dat)
  | .chk dat => .b12 (0x2#4 ++ dat)
  | .msl dat => .b12 (0x3#4 ++ dat)
  | .sinit dat => .b12 (0x4#4 ++ dat)
  | .schk ign final => .b12 (0x5#4 ++ (ign ++ BitVec.ofBool final))
  | .byte b => .b12 (0x6#4 ++ b)
  | .endTx dat => .b12 (0x7#4 ++ dat)
  | .wfct dat => .b12 (0x9#4 ++ dat)
  | .chkct dat => .b12 (0xA#4 ++ dat)
  | .reserved8 dat => .b12 (0x8#4 ++ dat)
  | .reservedB dat => .b12 (0xB#4 ++ dat)
  | .reservedC dat => .b12 (0xC#4 ++ dat)
  | .reservedD dat => .b12 (0xD#4 ++ dat)
  | .reservedE dat => .b12 (0xE#4 ++ dat)
  | .reservedF dat => .b12 (0xF#4 ++ dat)
  | .ascii b => .byte8 b
  | .contA b => .byte8 b
  | .contB b => .byte8 b
  | .contC b => .byte8 b
  | .badC0 b => .byte8 b
  | .lead2 b => .byte8 b
  | .lead3E0 => .byte8 0xE0
  | .lead3 b => .byte8 b
  | .lead3ED => .byte8 0xED
  | .lead4F0 => .byte8 0xF0
  | .lead4 b => .byte8 b
  | .lead4F4 => .byte8 0xF4
  | .badF5 b => .byte8 b

/-- The bytes a word is laid out as; `beatOfBytes` reads them back. -/
def Beat.bytes : Beat → List Byte
  | .b12 w => [datField w, 0x0#4 ++ opField w]
  | .byte8 b => [b]

/-- A row of spec/opcode_table.json: `word &&& mask = value` in the row's format. -/
structure TableRow where
  mnemonic : String
  value    : Wires
  mask     : Wires
  deriving DecidableEq, Repr

/-- The sixteen `B12` rows of spec/opcode_table.json (R61, R64). -/
def commandRows : List TableRow :=
  [⟨"NOP", 0x000, 0xF00⟩, ⟨"WF", 0x100, 0xF00⟩, ⟨"CHK", 0x200, 0xF00⟩, ⟨"MSL", 0x300, 0xF00⟩,
   ⟨"SINIT", 0x400, 0xF00⟩, ⟨"SCHK", 0x500, 0xF00⟩, ⟨"BYTE", 0x600, 0xF00⟩, ⟨"END", 0x700, 0xF00⟩,
   ⟨"WFCT", 0x900, 0xF00⟩, ⟨"CHKCT", 0xA00, 0xF00⟩, ⟨"RESERVED_8", 0x800, 0xF00⟩] ++
  [⟨"RESERVED_B", 0xB00, 0xF00⟩, ⟨"RESERVED_C", 0xC00, 0xF00⟩, ⟨"RESERVED_D", 0xD00, 0xF00⟩,
   ⟨"RESERVED_E", 0xE00, 0xF00⟩, ⟨"RESERVED_F", 0xF00, 0xF00⟩]

/-- The twenty-four `BYTE8` rows of spec/opcode_table.json (R73, the patterns `match/mask`); the byte is the low
eight bits. -/
def classRows : List TableRow :=
  [⟨"ASCII", 0x00, 0x80⟩, ⟨"CONT_A", 0x80, 0xF0⟩, ⟨"CONT_B", 0x90, 0xF0⟩, ⟨"CONT_C", 0xA0, 0xE0⟩,
   ⟨"BAD_C0", 0xC0, 0xFE⟩, ⟨"LEAD2", 0xC2, 0xFE⟩, ⟨"LEAD2", 0xC4, 0xFC⟩, ⟨"LEAD2", 0xC8, 0xF8⟩,
   ⟨"LEAD2", 0xD0, 0xF0⟩, ⟨"LEAD3_E0", 0xE0, 0xFF⟩, ⟨"LEAD3", 0xE1, 0xFF⟩, ⟨"LEAD3", 0xE2, 0xFE⟩] ++
  [⟨"LEAD3", 0xE4, 0xFC⟩, ⟨"LEAD3", 0xE8, 0xFC⟩, ⟨"LEAD3", 0xEC, 0xFF⟩, ⟨"LEAD3", 0xEE, 0xFE⟩,
   ⟨"LEAD3_ED", 0xED, 0xFF⟩, ⟨"LEAD4_F0", 0xF0, 0xFF⟩, ⟨"LEAD4", 0xF1, 0xFF⟩, ⟨"LEAD4", 0xF2, 0xFE⟩,
   ⟨"LEAD4_F4", 0xF4, 0xFF⟩, ⟨"BAD_F5", 0xF5, 0xFF⟩, ⟨"BAD_F5", 0xF6, 0xFE⟩, ⟨"BAD_F5", 0xF8, 0xF8⟩]

/-- A word matches a row of its format. -/
def TableRow.matches (r : TableRow) (w : Wires) : Bool := decide (w &&& r.mask = r.value)

end Sys2Proof
end

