-- ==== Sys2Proof/Machine/Codes.lean ====
section
/-! DEFINITION. The state codes of R70 and the opcodes of R61. -/

namespace Sys2Proof.Machine

/-! ## State codes (R70) -/

/-- Error, "an absorbing terminal state"; `ERR_CODE` = 0 (R5). -/
abbrev ERR : Code := 0x0
/-- Accept. -/
abbrev ACC : Code := 0x1
/-- Tail-awaiting-1. -/
abbrev T1 : Code := 0x2
/-- Tail-awaiting-2. -/
abbrev T2 : Code := 0x3
/-- Tail-awaiting-3, the state recovered by 90_conflicts.md C1. -/
abbrev T3 : Code := 0x4
/-- After lead E0. -/
abbrev E0 : Code := 0x5
/-- After lead ED. -/
abbrev ED : Code := 0x6
/-- After lead F0. -/
abbrev F0 : Code := 0x7
/-- After lead F4. -/
abbrev F4 : Code := 0x8

/-- A pending state is neither Accept nor Error (00_scope.md, glossary); codes 9 to 15 name no state (R70). -/
def isPending (s : Code) : Bool := decide (2 ≤ s.toNat) && decide (s.toNat ≤ 8)

/-! ## Opcodes of the begin commands (R61, R62), the values `MODE` takes (R19) -/

abbrev opWF : Code := 0x1
abbrev opCHK : Code := 0x2
abbrev opMSL : Code := 0x3
abbrev opSCHK : Code := 0x5
abbrev opWFCT : Code := 0x9
abbrev opCHKCT : Code := 0xA

/-- The six begin commands (R62). -/
def isBegin (m : Code) : Bool :=
  m = opWF || m = opCHK || m = opMSL || m = opSCHK || m = opWFCT || m = opCHKCT

end Sys2Proof.Machine
end

