-- ==== Sys2Proof/Machine/State.lean ====
section
/-! DEFINITION. The state of one U8V instance and its driver (spec/10_state.md). `Regs` is the eleven registers of R10 and
the ghost counter of R23, at any offset width; `State` is an instance of some `LENW`, its registers at that width, and the
input port's future.
The transition ROM is a constant, not state (R25, R40): Machine/Rom.lean. There is no writable memory (R41). -/

namespace Sys2Proof.Machine

/-- The sequencer phase `PH` (R18); the code 3 is never taken (R18, U12). -/
inductive Phase where
  /-- 0: no transaction is open. -/
  | idle
  /-- 1: `BYTE` beats go through the FSM. -/
  | run
  /-- 2: `BYTE` beats are discarded until `END`. -/
  | stop
  deriving DecidableEq, Repr

/-- The two-bit code of a phase (R10, R18). -/
def Phase.code : Phase → BitVec 2
  | .idle => 0
  | .run => 1
  | .stop => 2

/-- The eleven registers of R10 and the ghost counter `NLK` of R23, with offsets of `w` = `LENW` bits. -/
structure Regs (w : Nat) where
  /-- `S`, the running FSM state (R11). -/
  fsm   : Code
  /-- `SS`, the persisted Stream State (R12). -/
  ss    : Code
  /-- `POS`, the running byte offset (R13). -/
  pos   : BitVec w
  /-- `LA`, the offset of the most recent Accept point (R14). -/
  la    : BitVec w
  /-- `PH`, the sequencer phase (R18). -/
  ph    : Phase
  /-- `MODE`, the opcode of the begin command (R19). -/
  mode  : Code
  /-- `FIN`, the `is_final` flag (R20). -/
  fin   : Bool
  /-- `R_DONE`, a result is present (R21). -/
  rDone : Bool
  /-- `R_ERR`, the error condition (R21). -/
  rErr  : Bool
  /-- `R_LEN`, the length result (R21). -/
  rLen  : BitVec w
  /-- `PERR`, the sticky protocol-violation flag (R22). -/
  perr  : Bool
  /-- `NLK`, ghost: ROM lookups in the open transaction (R23). -/
  nlk   : Nat
  deriving DecidableEq, Repr

/-- What the host drives at the input port in one clock cycle (R26): `rst`, `in_valid`, `in_beat`. -/
structure PortIn where
  rst   : Bool
  valid : Bool
  beat  : Beat
  deriving DecidableEq, Repr

/-- What the block drives at its output ports (R26). -/
structure PortOut (w : Nat) where
  inReady : Bool
  resDone : Bool
  resErr  : Bool
  resLen  : BitVec w
  perr    : Bool
  deriving DecidableEq, Repr

/-- The result `END` writes: `R_ERR`, `R_LEN`, and the Stream State it leaves (R128). -/
structure EndResult (w : Nat) where
  err : Bool
  len : BitVec w
  ss  : Code
  deriving DecidableEq, Repr

/-- The block and its driver. No step changes `lenw`; R5 allows any value from 1 up, and the model is total at 0 too. -/
structure State where
  /-- `LENW`, the parameter the instance was built with (R5, D6; log entry 2). -/
  lenw  : Nat
  /-- The registers of R10, with offsets of `LENW` bits. -/
  regs  : Regs lenw
  /-- The cycles the host will drive, soonest first (R9, R26; log entry 1). -/
  input : List PortIn
  deriving DecidableEq, Repr

/-- Why the machine stops with a fault. -/
inductive Fault where
  /-- Raised by `BYTE` and the byte classes in `RUN`, and by `END` in `RUN` or `STOP`, when `MODE` holds no begin opcode:
  the spec gives no effect ("`MODE` holds no other value while `PH = RUN`", R126; R128) and no state reachable from
  reset is such. Safe. Log entry 4. -/
  | modeNotBegin
  deriving DecidableEq, Repr

/-- Why an instruction has no meaning. -/
inductive Refusal where
  /-- Raised by `exec` for an instruction not modelled yet; no arm of this model raises it. Safe. -/
  | notModelled (mnemonic : String)
  deriving DecidableEq, Repr

/-- The registers after reset: the table of R27. -/
def Regs.afterReset {w : Nat} : Regs w :=
  { fsm := ACC, ss := ACC, pos := 0, la := 0, ph := .idle, mode := 0, fin := false,
    rDone := false, rErr := false, rLen := 0, perr := false, nlk := 0 }

/-- An instance of any `LENW` right after reset (R5, R27, R250), with nothing driven at the input port. -/
def State.resetAt (w : Nat) : State := { lenw := w, regs := Regs.afterReset, input := [] }

/-- The machine right after reset, at the default `LENW` (R5). -/
def State.reset : State := State.resetAt Config.defaultLenw

end Sys2Proof.Machine
end

