-- ==== Sys2Proof/Machine/Rom.lean ====
section
/-! DEFINITION. The transition ROM (spec/20_memory.md R40 to R42), as listed in spec/40_transition_table.md R96. It is a
constant: nothing writes it and reset leaves it (R41, R27). -/

namespace Sys2Proof.Machine

/-- Rows 0x00 to 0x3F, eight a line. -/
def romRows0 : List Row :=
  [0x000000010, 0x000000010, 0x000000010, 0x000000010, 0x000000010, 0x000000010, 0x000000010, 0x000000010] ++
  [0x000000010, 0x000000010, 0x000000010, 0x000000010, 0x000000010, 0x000000010, 0x000000010, 0x000000010] ++
  [0x000000010, 0x000000010, 0x000000010, 0x000000010, 0x000000010, 0x000000010, 0x000000010, 0x000000010] ++
  [0x000000010, 0x000000010, 0x000000010, 0x000000010, 0x000000010, 0x000000010, 0x000000010, 0x000000010] ++
  [0x000000010, 0x000000010, 0x000000010, 0x000000010, 0x000000010, 0x000000010, 0x000000010, 0x000000010] ++
  [0x000000010, 0x000000010, 0x000000010, 0x000000010, 0x000000010, 0x000000010, 0x000000010, 0x000000010] ++
  [0x000000010, 0x000000010, 0x000000010, 0x000000010, 0x000000010, 0x000000010, 0x000000010, 0x000000010] ++
  [0x000000010, 0x000000010, 0x000000010, 0x000000010, 0x000000010, 0x000000010, 0x000000010, 0x000000010]

/-- Rows 0x40 to 0x7F, eight a line. -/
def romRows1 : List Row :=
  [0x000000010, 0x000000010, 0x000000010, 0x000000010, 0x000000010, 0x000000010, 0x000000010, 0x000000010] ++
  [0x000000010, 0x000000010, 0x000000010, 0x000000010, 0x000000010, 0x000000010, 0x000000010, 0x000000010] ++
  [0x000000010, 0x000000010, 0x000000010, 0x000000010, 0x000000010, 0x000000010, 0x000000010, 0x000000010] ++
  [0x000000010, 0x000000010, 0x000000010, 0x000000010, 0x000000010, 0x000000010, 0x000000010, 0x000000010] ++
  [0x000000010, 0x000000010, 0x000000010, 0x000000010, 0x000000010, 0x000000010, 0x000000010, 0x000000010] ++
  [0x000000010, 0x000000010, 0x000000010, 0x000000010, 0x000000010, 0x000000010, 0x000000010, 0x000000010] ++
  [0x000000010, 0x000000010, 0x000000010, 0x000000010, 0x000000010, 0x000000010, 0x000000010, 0x000000010] ++
  [0x000000010, 0x000000010, 0x000000010, 0x000000010, 0x000000010, 0x000000010, 0x000000010, 0x000000010]

/-- Rows 0x80 to 0xBF, eight a line. -/
def romRows2 : List Row :=
  [0x302032100, 0x302032100, 0x302032100, 0x302032100, 0x302032100, 0x302032100, 0x302032100, 0x302032100] ++
  [0x302032100, 0x302032100, 0x302032100, 0x302032100, 0x302032100, 0x302032100, 0x302032100, 0x302032100] ++
  [0x032032100, 0x032032100, 0x032032100, 0x032032100, 0x032032100, 0x032032100, 0x032032100, 0x032032100] ++
  [0x032032100, 0x032032100, 0x032032100, 0x032032100, 0x032032100, 0x032032100, 0x032032100, 0x032032100] ++
  [0x030232100, 0x030232100, 0x030232100, 0x030232100, 0x030232100, 0x030232100, 0x030232100, 0x030232100] ++
  [0x030232100, 0x030232100, 0x030232100, 0x030232100, 0x030232100, 0x030232100, 0x030232100, 0x030232100] ++
  [0x030232100, 0x030232100, 0x030232100, 0x030232100, 0x030232100, 0x030232100, 0x030232100, 0x030232100] ++
  [0x030232100, 0x030232100, 0x030232100, 0x030232100, 0x030232100, 0x030232100, 0x030232100, 0x030232100]

/-- Rows 0xC0 to 0xFF, eight a line. -/
def romRows3 : List Row :=
  [0x000000000, 0x000000000, 0x000000020, 0x000000020, 0x000000020, 0x000000020, 0x000000020, 0x000000020] ++
  [0x000000020, 0x000000020, 0x000000020, 0x000000020, 0x000000020, 0x000000020, 0x000000020, 0x000000020] ++
  [0x000000020, 0x000000020, 0x000000020, 0x000000020, 0x000000020, 0x000000020, 0x000000020, 0x000000020] ++
  [0x000000020, 0x000000020, 0x000000020, 0x000000020, 0x000000020, 0x000000020, 0x000000020, 0x000000020] ++
  [0x000000050, 0x000000030, 0x000000030, 0x000000030, 0x000000030, 0x000000030, 0x000000030, 0x000000030] ++
  [0x000000030, 0x000000030, 0x000000030, 0x000000030, 0x000000030, 0x000000060, 0x000000030, 0x000000030] ++
  [0x000000070, 0x000000040, 0x000000040, 0x000000040, 0x000000080, 0x000000000, 0x000000000, 0x000000000] ++
  [0x000000000, 0x000000000, 0x000000000, 0x000000000, 0x000000000, 0x000000000, 0x000000000, 0x000000000]

/-- `TROM`, the 256 rows of R96. -/
def rom : List Row := romRows0 ++ (romRows1 ++ (romRows2 ++ romRows3))

/-- `RomRead(a)` (R42): the whole row at address `a`. All 256 addresses are populated, so the default is never taken. -/
def romRead (a : Byte) : Row := rom.getD a.toNat 0

end Sys2Proof.Machine
end

