-- ==== Sys2Proof/Machine/Operands.lean ====
section
/-! DEFINITION. How an operand becomes a value: the one addressing mode of the block (R63, R90). -/

namespace Sys2Proof.Machine

/-- `unpack(row, s)` (R72): the field of state code `s`, bits `[4s+3:4s]`; `ERR` for the codes 9 to 15. -/
def unpack (row : Row) (s : Code) : Code :=
  if s.toNat ≤ 8 then row.extractLsb' (4 * s.toNat) 4 else ERR

/-- `delta(s, b)` (R90): the byte is the ROM address, the current state selects the field. -/
def delta (s : Code) (b : Byte) : Code := unpack (romRead b) s

/-- "The high bit of a byte is bit 7" (R6); the fast path's test is that it is clear (R135). -/
def highBitClear (b : Byte) : Bool := !b.getLsbD 7

end Sys2Proof.Machine
end

