-- ==== Sys2Proof/Machine/Flags.lean ====
section
/-! DEFINITION. The conditions and results the sequencer computes: the stop condition (R126), the fast path's condition
(R135), and the result of `END` by mode (R128, R184). -/

namespace Sys2Proof.Machine

/-- `stops(MODE, s')` (R126); `none` when `MODE` is no begin opcode, where the spec gives no condition. -/
def stops (m s' : Code) : Option Bool :=
  if m = opWF ∨ m = opCHK then some (s' = ERR)
  else if m = opMSL then some (s' = ERR || s' = ACC)
  else if m = opSCHK then some (s' = ERR)
  else if m = opWFCT ∨ m = opCHKCT then some false
  else none

/-- Whether a `BYTE` beat in `RUN` leaves the ROM unread (R135): `FASTPATH`, `S = ACC`, `dat[7] = 0`, `MODE[3] = 0`. -/
def fastTaken {w : Nat} (fast : Bool) (b : Byte) (r : Regs w) : Bool :=
  fast && decide (r.fsm = ACC) && highBitClear b && !r.mode.getLsbD 3

/-- `max(a, b)`, "the larger of two unsigned numbers" (R7). -/
def maxU {w : Nat} (a b : BitVec w) : BitVec w := if a < b then b else a

/-- The `WF`, `WFCT` arm of `END` (R128, R150, R200). -/
def resultWf {w : Nat} (r : Regs w) : EndResult w :=
  { err := decide (r.fsm ≠ ACC), len := 0, ss := r.ss }

/-- The `CHK`, `CHKCT` arm of `END` (R128, R151, R201). -/
def resultChk {w : Nat} (r : Regs w) : EndResult w :=
  if r.fsm = ACC then { err := false, len := r.pos, ss := r.ss }
  else { err := true, len := r.la, ss := r.ss }

/-- The `MSL` arm of `END` (R128, R165). -/
def resultMsl {w : Nat} (r : Regs w) : EndResult w :=
  { err := false, len := if r.fsm = ERR then maxU (r.pos - 1) 1 else r.pos, ss := r.ss }

/-- The `SCHK` arm of `END`, its five cases in the order of R184. -/
def resultSchk {w : Nat} (r : Regs w) : EndResult w :=
  if r.pos = 0 then { err := false, len := 0, ss := r.ss }
  else if r.fsm = ERR then { err := true, len := r.la, ss := ACC }
  else if r.fsm = ACC then { err := false, len := r.pos, ss := ACC }
  else if r.fin = true then { err := true, len := r.la, ss := ACC }
  else { err := false, len := r.la, ss := r.fsm }

/-- The result of `END` by `MODE` (R128); `none` when `MODE` is no begin opcode. -/
def endResult {w : Nat} (r : Regs w) : Option (EndResult w) :=
  if r.mode = opWF ∨ r.mode = opWFCT then some (resultWf r)
  else if r.mode = opCHK ∨ r.mode = opCHKCT then some (resultChk r)
  else if r.mode = opMSL then some (resultMsl r)
  else if r.mode = opSCHK then some (resultSchk r)
  else none

end Sys2Proof.Machine
end

