-- ==== Sys2Proof/Machine/Ops.lean ====
section
/-! DEFINITION. The shared operations on the registers, at any offset width, and their lifting to the machine. -/

namespace Sys2Proof.Machine

/-- `violation()` (R226), the block's one counterpart of raising an exception (R7): only `PERR` changes. -/
def Regs.violation {w : Nat} (r : Regs w) : Regs w := { r with perr := true }

/-- The registers an accepted begin command leaves (R121): `R_ERR`, `R_LEN`, `SS` and `PERR` are kept. -/
def Regs.opened {w : Nat} (m s0 : Code) (f : Bool) (r : Regs w) : Regs w :=
  { r with mode := m, fin := f, fsm := s0, pos := 0, la := 0, ph := .run, rDone := false, nlk := 0 }

/-- `begin(m, s0, f)` (R121). -/
def Regs.beginTx {w : Nat} (m s0 : Code) (f : Bool) (r : Regs w) : Regs w :=
  if r.ph = .idle then r.opened m s0 f else r.violation

/-- `SINIT` (R180). -/
def Regs.sinit {w : Nat} (r : Regs w) : Regs w :=
  if r.ph = .idle then { r with ss := ACC } else r.violation

/-- The registers a `BYTE` beat in `RUN` leaves (R122), given the new state, whether the ROM was read and whether the
sequencer stops. -/
def Regs.consumed {w : Nat} (s' : Code) (looked stop : Bool) (r : Regs w) : Regs w :=
  { r with
    fsm := s'
    pos := r.pos + 1
    la := if s' = ACC then r.pos + 1 else r.la
    ph := if stop then .stop else r.ph
    nlk := if looked then r.nlk + 1 else r.nlk }

/-- The state after consuming `b`: `ACC` on the fast path, otherwise the field of the byte's row (R122, R135). -/
def Regs.successor {w : Nat} (fast : Bool) (row : Row) (b : Byte) (r : Regs w) : Code :=
  if fastTaken fast b r then ACC else unpack row r.fsm

/-- A `BYTE` beat (R122, R126, R127): `row` is the ROM row of the byte `b`. -/
def Regs.byteBeat {w : Nat} (fast : Bool) (row : Row) (b : Byte) (r : Regs w) : Except Fault (Regs w) :=
  match r.ph with
  | .idle => .ok r.violation
  | .stop => .ok r
  | .run =>
    match stops r.mode (r.successor fast row b) with
    | some stop => .ok (r.consumed (r.successor fast row b) (!fastTaken fast b r) stop)
    | none => .error .modeNotBegin

/-- The registers `END` leaves (R128). -/
def Regs.closed {w : Nat} (res : EndResult w) (r : Regs w) : Regs w :=
  { r with rErr := res.err, rLen := res.len, ss := res.ss, rDone := true, ph := .idle }

/-- `END` (R128). -/
def Regs.endBeat {w : Nat} (r : Regs w) : Except Fault (Regs w) :=
  if r.ph = .idle then .ok r.violation
  else
    match endResult r with
    | some res => .ok (r.closed res)
    | none => .error .modeNotBegin

/-- The output ports (R26): the registers themselves, and `in_ready` constant 1. -/
def Regs.ports {w : Nat} (r : Regs w) : PortOut w :=
  { inReady := true, resDone := r.rDone, resErr := r.rErr, resLen := r.rLen, perr := r.perr }

/-- The machine with other registers; its `LENW` and the driver's cycles are left alone. -/
def State.withRegs (s : State) (r : Regs s.lenw) : State := { s with regs := r }

/-- The machine with its registers updated. -/
def State.mapRegs (s : State) (f : Regs s.lenw → Regs s.lenw) : State := s.withRegs (f s.regs)

/-- The outcome of an operation that may fault. -/
def State.outcome (s : State) : Except Fault (Regs s.lenw) → Host.Outcome State Fault Refusal
  | .ok r => .next (s.withRegs r)
  | .error f => .fault f

end Sys2Proof.Machine
end

