-- ==== Sys2Proof/Machine/ByteClass.lean ====
section
/-! DEFINITION. The thirteen byte classes (R101 to R113): a byte of the class, carried by a `BYTE` beat (R122), meets the
class's own ROM row. The row words are those the class rules print, not the listing of R96; that the two agree is a
statement about the model. Log entry 5. -/

namespace Sys2Proof.Machine

/-- The row of class `ASCII` (R101). -/
def rowAscii : Row := 0x000000010

/-- A byte of class `ASCII` (R101, R122). -/
def execAscii (b : Byte) (s : State) : Host.Outcome State Fault Refusal :=
  s.outcome (s.regs.byteBeat Config.fastpath rowAscii b)

/-- The row of class `CONT_A` (R102). -/
def rowContA : Row := 0x302032100

/-- A byte of class `CONT_A` (R102, R122). -/
def execContA (b : Byte) (s : State) : Host.Outcome State Fault Refusal :=
  s.outcome (s.regs.byteBeat Config.fastpath rowContA b)

/-- The row of class `CONT_B` (R103). -/
def rowContB : Row := 0x032032100

/-- A byte of class `CONT_B` (R103, R122). -/
def execContB (b : Byte) (s : State) : Host.Outcome State Fault Refusal :=
  s.outcome (s.regs.byteBeat Config.fastpath rowContB b)

/-- The row of class `CONT_C` (R104). -/
def rowContC : Row := 0x030232100

/-- A byte of class `CONT_C` (R104, R122). -/
def execContC (b : Byte) (s : State) : Host.Outcome State Fault Refusal :=
  s.outcome (s.regs.byteBeat Config.fastpath rowContC b)

/-- The row of class `BAD_C0` (R105). -/
def rowBadC0 : Row := 0x000000000

/-- A byte of class `BAD_C0` (R105, R122). -/
def execBadC0 (b : Byte) (s : State) : Host.Outcome State Fault Refusal :=
  s.outcome (s.regs.byteBeat Config.fastpath rowBadC0 b)

/-- The row of class `LEAD2` (R106). -/
def rowLead2 : Row := 0x000000020

/-- A byte of class `LEAD2` (R106, R122). -/
def execLead2 (b : Byte) (s : State) : Host.Outcome State Fault Refusal :=
  s.outcome (s.regs.byteBeat Config.fastpath rowLead2 b)

/-- The row of class `LEAD3_E0` (R107). -/
def rowLead3E0 : Row := 0x000000050

/-- A byte of class `LEAD3_E0` (R107, R122). -/
def execLead3E0 (s : State) : Host.Outcome State Fault Refusal :=
  s.outcome (s.regs.byteBeat Config.fastpath rowLead3E0 0xE0)

/-- The row of class `LEAD3` (R108). -/
def rowLead3 : Row := 0x000000030

/-- A byte of class `LEAD3` (R108, R122). -/
def execLead3 (b : Byte) (s : State) : Host.Outcome State Fault Refusal :=
  s.outcome (s.regs.byteBeat Config.fastpath rowLead3 b)

/-- The row of class `LEAD3_ED` (R109). -/
def rowLead3ED : Row := 0x000000060

/-- A byte of class `LEAD3_ED` (R109, R122). -/
def execLead3ED (s : State) : Host.Outcome State Fault Refusal :=
  s.outcome (s.regs.byteBeat Config.fastpath rowLead3ED 0xED)

/-- The row of class `LEAD4_F0` (R110). -/
def rowLead4F0 : Row := 0x000000070

/-- A byte of class `LEAD4_F0` (R110, R122). -/
def execLead4F0 (s : State) : Host.Outcome State Fault Refusal :=
  s.outcome (s.regs.byteBeat Config.fastpath rowLead4F0 0xF0)

/-- The row of class `LEAD4` (R111). -/
def rowLead4 : Row := 0x000000040

/-- A byte of class `LEAD4` (R111, R122). -/
def execLead4 (b : Byte) (s : State) : Host.Outcome State Fault Refusal :=
  s.outcome (s.regs.byteBeat Config.fastpath rowLead4 b)

/-- The row of class `LEAD4_F4` (R112). -/
def rowLead4F4 : Row := 0x000000080

/-- A byte of class `LEAD4_F4` (R112, R122). -/
def execLead4F4 (s : State) : Host.Outcome State Fault Refusal :=
  s.outcome (s.regs.byteBeat Config.fastpath rowLead4F4 0xF4)

/-- The row of class `BAD_F5` (R113). -/
def rowBadF5 : Row := 0x000000000

/-- A byte of class `BAD_F5` (R113, R122). -/
def execBadF5 (b : Byte) (s : State) : Host.Outcome State Fault Refusal :=
  s.outcome (s.regs.byteBeat Config.fastpath rowBadF5 b)

end Sys2Proof.Machine
end

