-- ==== Sys2Proof/Machine/Classifier.lean ====
section
/-! DEFINITION. `MSL` (spec/43_classifier.md). -/

namespace Sys2Proof.Machine

/-- `MSL` (R165): `begin(0x3, ACC, 0)`. -/
def execMsl (_dat : Byte) (s : State) : Host.Outcome State Fault Refusal :=
  .next (s.withRegs (s.regs.beginTx opMSL ACC false))

end Sys2Proof.Machine
end

