-- ==== Sys2Proof/Machine/ConstantTime.lean ====
section
/-! DEFINITION. `WFCT` and `CHKCT` (spec/45_constant_time.md). -/

namespace Sys2Proof.Machine

/-- `WFCT` (R200): `begin(0x9, ACC, 0)`. -/
def execWfct (_dat : Byte) (s : State) : Host.Outcome State Fault Refusal :=
  .next (s.withRegs (s.regs.beginTx opWFCT ACC false))

/-- `CHKCT` (R201): `begin(0xA, ACC, 0)`. -/
def execChkct (_dat : Byte) (s : State) : Host.Outcome State Fault Refusal :=
  .next (s.withRegs (s.regs.beginTx opCHKCT ACC false))

end Sys2Proof.Machine
end

