-- ==== Sys2Proof/Machine/Reserved.lean ====
section
/-! DEFINITION. The reserved opcodes (R64): each is a protocol violation in every phase (R226, R227 V1). -/

namespace Sys2Proof.Machine

/-- Opcode 0x8 (R64). -/
def execReserved8 (_dat : Byte) (s : State) : Host.Outcome State Fault Refusal :=
  .next (s.withRegs s.regs.violation)

/-- Opcode 0xB (R64). -/
def execReservedB (_dat : Byte) (s : State) : Host.Outcome State Fault Refusal :=
  .next (s.withRegs s.regs.violation)

/-- Opcode 0xC (R64). -/
def execReservedC (_dat : Byte) (s : State) : Host.Outcome State Fault Refusal :=
  .next (s.withRegs s.regs.violation)

/-- Opcode 0xD (R64). -/
def execReservedD (_dat : Byte) (s : State) : Host.Outcome State Fault Refusal :=
  .next (s.withRegs s.regs.violation)

/-- Opcode 0xE (R64). -/
def execReservedE (_dat : Byte) (s : State) : Host.Outcome State Fault Refusal :=
  .next (s.withRegs s.regs.violation)

/-- Opcode 0xF (R64). -/
def execReservedF (_dat : Byte) (s : State) : Host.Outcome State Fault Refusal :=
  .next (s.withRegs s.regs.violation)

end Sys2Proof.Machine
end

