-- ==== Sys2Proof/Machine/Sequencer.lean ====
section
/-! DEFINITION. `NOP`, `BYTE` and `END` (spec/41_sequencer.md). -/

namespace Sys2Proof.Machine

/-- `NOP` (R120): no register changes, in any phase. -/
def execNop (_dat : Byte) (s : State) : Host.Outcome State Fault Refusal := .next s

/-- `BYTE` (R122): the row is read from the ROM at the byte's own address (R63, R90). -/
def execByte (b : Byte) (s : State) : Host.Outcome State Fault Refusal :=
  s.outcome (s.regs.byteBeat Config.fastpath (romRead b) b)

/-- `END` (R128). -/
def execEnd (_dat : Byte) (s : State) : Host.Outcome State Fault Refusal :=
  s.outcome s.regs.endBeat

end Sys2Proof.Machine
end

