-- ==== Sys2Proof/Machine/SingleShot.lean ====
section
/-! DEFINITION. `WF` and `CHK` (spec/42_single_shot.md). -/

namespace Sys2Proof.Machine

/-- `WF` (R150): `begin(0x1, ACC, 0)`. -/
def execWf (_dat : Byte) (s : State) : Host.Outcome State Fault Refusal :=
  .next (s.withRegs (s.regs.beginTx opWF ACC false))

/-- `CHK` (R151): `begin(0x2, ACC, 0)`. -/
def execChk (_dat : Byte) (s : State) : Host.Outcome State Fault Refusal :=
  .next (s.withRegs (s.regs.beginTx opCHK ACC false))

end Sys2Proof.Machine
end

