-- ==== Sys2Proof/Machine/Streaming.lean ====
section
/-! DEFINITION. `SINIT` and `SCHK` (spec/44_streaming.md). -/

namespace Sys2Proof.Machine

/-- `SINIT` (R180): `SS <- ACC`, legal in `IDLE`. -/
def execSinit (_dat : Byte) (s : State) : Host.Outcome State Fault Refusal :=
  .next (s.withRegs s.regs.sinit)

/-- `SCHK` (R181): `begin(0x5, SS, dat[0])`. -/
def execSchk (_ign : BitVec 7) (final : Bool) (s : State) : Host.Outcome State Fault Refusal :=
  .next (s.withRegs (s.regs.beginTx opSCHK s.regs.ss final))

end Sys2Proof.Machine
end

