-- ==== Sys2Proof/Machine/Dispatch.lean ====
section
/-! DEFINITION. The dispatch: one arm per instruction. -/

namespace Sys2Proof.Machine

def exec (i : Instr) (s : State) : Host.Outcome State Fault Refusal :=
  match i with
  | .nop d => Sys2Proof.Machine.execNop d s
  | .wf d => Sys2Proof.Machine.execWf d s
  | .chk d => Sys2Proof.Machine.execChk d s
  | .msl d => Sys2Proof.Machine.execMsl d s
  | .sinit d => Sys2Proof.Machine.execSinit d s
  | .schk g f => Sys2Proof.Machine.execSchk g f s
  | .byte b => Sys2Proof.Machine.execByte b s
  | .endTx d => Sys2Proof.Machine.execEnd d s
  | .wfct d => Sys2Proof.Machine.execWfct d s
  | .chkct d => Sys2Proof.Machine.execChkct d s
  | .reserved8 d => Sys2Proof.Machine.execReserved8 d s
  | .reservedB d => Sys2Proof.Machine.execReservedB d s
  | .reservedC d => Sys2Proof.Machine.execReservedC d s
  | .reservedD d => Sys2Proof.Machine.execReservedD d s
  | .reservedE d => Sys2Proof.Machine.execReservedE d s
  | .reservedF d => Sys2Proof.Machine.execReservedF d s
  | .ascii b => Sys2Proof.Machine.execAscii b s
  | .contA b => Sys2Proof.Machine.execContA b s
  | .contB b => Sys2Proof.Machine.execContB b s
  | .contC b => Sys2Proof.Machine.execContC b s
  | .badC0 b => Sys2Proof.Machine.execBadC0 b s
  | .lead2 b => Sys2Proof.Machine.execLead2 b s
  | .lead3E0 => Sys2Proof.Machine.execLead3E0 s
  | .lead3 b => Sys2Proof.Machine.execLead3 b s
  | .lead3ED => Sys2Proof.Machine.execLead3ED s
  | .lead4F0 => Sys2Proof.Machine.execLead4F0 s
  | .lead4 b => Sys2Proof.Machine.execLead4 b s
  | .lead4F4 => Sys2Proof.Machine.execLead4F4 s
  | .badF5 b => Sys2Proof.Machine.execBadF5 b s

end Sys2Proof.Machine
end

