-- ==== Sys2Proof/Machine/Cycle.lean ====
section
/-! DEFINITION. What one clock cycle does (R26, R250), and how a word of the opcode table is presented. -/

namespace Sys2Proof.Machine

/-- Reset takes every register to R27, whatever it held (R250). -/
def Regs.applyReset {w : Nat} (_r : Regs w) : Regs w := Regs.afterReset

/-- One cycle: `rst = 1` overrides any beat of the cycle (R250, R223 (d)); a beat is accepted when `rst = 0` and
`in_valid = 1`; in any other cycle no register changes (R26). -/
def cycle (c : PortIn) (s : State) : Host.Outcome State Fault Refusal :=
  if c.rst then .next (s.withRegs s.regs.applyReset)
  else if c.valid then exec (decodeBeat c.beat) s
  else .next s

/-- The cycle in which the host presents a beat. -/
def PortIn.present (x : Beat) : PortIn := { rst := false, valid := true, beat := x }

/-- The beat that carries a table word of `nbits` bits. -/
def beatOfTableWord (nbits w : Nat) : Beat :=
  if nbits ≤ 8 then .byte8 (BitVec.ofNat 8 w) else .b12 (BitVec.ofNat 12 w)

end Sys2Proof.Machine
end

