-- ==== Sys2Proof/Machine/Step.lean ====
section
/-! DEFINITION. One step is one clock cycle: the host's next cycle is taken from the front of `input` (R9, R26). With
nothing left to drive, the host leaves `rst` and `in_valid` at 0, and no register changes. Log entry 1. -/

namespace Sys2Proof.Machine

def step (s : State) : Host.Outcome State Fault Refusal :=
  match s.input with
  | [] => .next s
  | c :: rest => cycle c { s with input := rest }

/-- `s` with the table word presented in the next cycle. Log entry 1. -/
def State.withFetchWord (s : State) (nbits w : Nat) : State :=
  { s with input := PortIn.present (beatOfTableWord nbits w) :: s.input }

end Sys2Proof.Machine
end

