-- ==== Sys2Proof/Machine/Grammar.lean ====
section
/-! DEFINITION. The grammar as spec/40_transition_table.md states it, apart from the ROM that implements it: the next-state
function by rules R91 to R95, the runs of the FSM (R98), the well-formed sequences (R99), how a pending state may go on
(R100), and the encodings of scalar values that R98 and R155 speak of. Statements hold the ROM and the sequencer against
these; no instruction's meaning reads them. -/

namespace Sys2Proof.Machine

/-- A continuation byte, 0x80-0xBF (R93). -/
def isCont (b : Byte) : Bool := Byte.within 0x80 0xBF b

/-- The successor of `ACC` (R92); a byte not given one goes to `ERR` (R95). -/
def deltaFromAcc (b : Byte) : Code :=
  if Byte.within 0x00 0x7F b then ACC
  else if Byte.within 0xC2 0xDF b then T1
  else if Byte.within 0xE1 0xEC b || Byte.within 0xEE 0xEF b then T2
  else if b = 0xE0 then E0
  else if b = 0xED then ED
  else if Byte.within 0xF1 0xF3 b then T3
  else if b = 0xF0 then F0
  else if b = 0xF4 then F4
  else ERR

/-- The next state by the rules: R91 for `ERR`, R92 for `ACC`, R93 for the tail states, R94 for the restricted-lead
states, R95 for every other pair; a code that names no state gives `ERR` (R72). -/
def deltaRule (s : Code) (b : Byte) : Code :=
  if s = ACC then deltaFromAcc b
  else if s = T1 then (if isCont b then ACC else ERR)
  else if s = T2 then (if isCont b then T1 else ERR)
  else if s = T3 then (if isCont b then T2 else ERR)
  else if s = E0 then (if Byte.within 0xA0 0xBF b then T1 else ERR)
  else if s = ED then (if Byte.within 0x80 0x9F b then T1 else ERR)
  else if s = F0 then (if Byte.within 0x90 0xBF b then T2 else ERR)
  else if s = F4 then (if Byte.within 0x80 0x8F b then T2 else ERR)
  else ERR

/-- `run(s, b)` (R98): the state after consuming a buffer, "left to right". -/
def runDelta (s : Code) : List Byte → Code
  | [] => s
  | b :: bs => runDelta (delta s b) bs

/-- One sequence of the eight shapes of R99. -/
def isShape : List Byte → Bool
  | [a] => Byte.within 0x00 0x7F a
  | [a, b] => Byte.within 0xC2 0xDF a && isCont b
  | [a, b, c] =>
    ((decide (a = 0xE0) && Byte.within 0xA0 0xBF b)
      || ((Byte.within 0xE1 0xEC a || Byte.within 0xEE 0xEF a) && isCont b)
      || (decide (a = 0xED) && Byte.within 0x80 0x9F b)) && isCont c
  | [a, b, c, d] =>
    ((decide (a = 0xF0) && Byte.within 0x90 0xBF b)
      || (Byte.within 0xF1 0xF3 a && isCont b)
      || (decide (a = 0xF4) && Byte.within 0x80 0x8F b)) && isCont c && isCont d
  | _ => false

/-- A concatenation of zero or more sequences of the shapes of R99. -/
def IsShapeConcat (bs : List Byte) : Prop :=
  ∃ parts : List (List Byte), (∀ p ∈ parts, isShape p = true) ∧ parts.flatten = bs

/-- How a state may go on to complete its sequence (R100): `T1` any one continuation byte, and so on. -/
def completes (s : Code) (q : List Byte) : Bool :=
  if s = T1 then (match q with | [a] => isCont a | _ => false)
  else if s = T2 then (match q with | [a, b] => isCont a && isCont b | _ => false)
  else if s = T3 then (match q with | [a, b, c] => isCont a && isCont b && isCont c | _ => false)
  else if s = E0 then (match q with | [a, b] => Byte.within 0xA0 0xBF a && isCont b | _ => false)
  else if s = ED then (match q with | [a, b] => Byte.within 0x80 0x9F a && isCont b | _ => false)
  else if s = F0 then (match q with | [a, b, c] => Byte.within 0x90 0xBF a && isCont b && isCont c | _ => false)
  else if s = F4 then (match q with | [a, b, c] => Byte.within 0x80 0x8F a && isCont b && isCont c | _ => false)
  else false

/-- A scalar value: U+0000-U+D7FF or U+E000-U+10FFFF (R98, R155). -/
def isScalar (c : Nat) : Bool := decide (c < 0xD800) || (decide (0xE000 ≤ c) && decide (c < 0x110000))

/-- The minimal encoding of a scalar value. PRESUMED: the spec gives the bit layout nowhere (N18, K1); this is UTF-8's
own, six bits a continuation byte. Log entry 7. -/
def encodeScalar (c : Nat) : List Byte :=
  if c < 0x80 then [BitVec.ofNat 8 c]
  else if c < 0x800 then [BitVec.ofNat 8 (0xC0 + c / 64), BitVec.ofNat 8 (0x80 + c % 64)]
  else if c < 0x10000 then
    [BitVec.ofNat 8 (0xE0 + c / 4096), BitVec.ofNat 8 (0x80 + c / 64 % 64), BitVec.ofNat 8 (0x80 + c % 64)]
  else
    [BitVec.ofNat 8 (0xF0 + c / 262144), BitVec.ofNat 8 (0x80 + c / 4096 % 64),
     BitVec.ofNat 8 (0x80 + c / 64 % 64), BitVec.ofNat 8 (0x80 + c % 64)]

end Sys2Proof.Machine
end

