-- ==== Sys2Proof/Machine/Reference.lean ====
section
/-! DEFINITION. What the source's operations compute, as pure functions of a buffer: the single-shot validator (R152), the
maximal subpart length (R167) and its table (R170), the streaming function (R183), and the fold of a transaction (R131).
Statements hold the machine's transactions against these; no instruction's meaning reads them. -/

namespace Sys2Proof.Machine

/-- `s_k`: the state after the first `k` bytes, from `s0` (R152, R167, R183). -/
def stateAt (s0 : Code) (b : List Byte) (k : Nat) : Code := runDelta s0 (b.take k)

/-- `la_k`: the largest `j <= k` with `s_j = ACC`, or 0 if there is none (R152, R183). -/
def lastAccept (s0 : Code) (b : List Byte) : Nat → Nat
  | 0 => 0
  | k + 1 => if stateAt s0 b (k + 1) = ACC then k + 1 else lastAccept s0 b k

/-- The least `k` in `0 .. n` with `s_k = ERR`, if there is one (R152, R183). -/
def firstError (s0 : Code) (b : List Byte) : Option Nat :=
  (List.range (b.length + 1)).find? (fun k => decide (stateAt s0 b k = ERR))

/-- `validate(b) = (valid, prefix_length)` (R152). -/
def validate (b : List Byte) : Bool × Nat :=
  match firstError ACC b with
  | some k => (false, lastAccept ACC b k)
  | none =>
    if stateAt ACC b b.length = ACC then (true, b.length) else (false, lastAccept ACC b b.length)

/-- `is_well_formed(b)`, the first component of `validate(b)` (R153). -/
def isWellFormed (b : List Byte) : Bool := (validate b).1

/-- `msl(b)` (R167). -/
def msl (b : List Byte) : Nat :=
  match (List.range b.length).find?
      (fun i => decide (stateAt ACC b (i + 1) = ACC) || decide (stateAt ACC b (i + 1) = ERR)) with
  | some i => if stateAt ACC b (i + 1) = ACC then i + 1 else max i 1
  | none => b.length

/-- The second byte legal after a lead byte (R170): A0-BF after E0, 80-9F after ED, 90-BF after F0, 80-8F after F4,
else 80-BF. -/
def legalSecond (a c : Byte) : Bool :=
  if a = 0xE0 then Byte.within 0xA0 0xBF c
  else if a = 0xED then Byte.within 0x80 0x9F c
  else if a = 0xF0 then Byte.within 0x90 0xBF c
  else if a = 0xF4 then Byte.within 0x80 0x8F c
  else isCont c

/-- The table of R170: `msl` by the shape of the buffer's start. -/
def mslByShape : List Byte → Nat
  | [] => 0
  | a :: rest =>
    if Byte.within 0xC2 0xDF a then
      match rest with
      | [] => 1
      | c :: _ => if legalSecond a c then 2 else 1
    else if Byte.within 0xE0 0xEF a then
      match rest with
      | [] => 1
      | [c] => if legalSecond a c then 2 else 1
      | c :: d :: _ => if legalSecond a c then (if isCont d then 3 else 2) else 1
    else if Byte.within 0xF0 0xF4 a then
      match rest with
      | [] => 1
      | [c] => if legalSecond a c then 2 else 1
      | [c, d] => if legalSecond a c then (if isCont d then 3 else 2) else 1
      | c :: d :: e :: _ =>
        if legalSecond a c then (if isCont d then (if isCont e then 4 else 3) else 2) else 1
    else 1

/-- The result of one streaming call: the error flag, the consumed length or the cursor, and `ss'` (R183). -/
structure StreamResult where
  err : Bool
  len : Nat
  ss  : Code
  deriving DecidableEq, Repr

/-- `stream_check(ss, c, is_final)` (R183), its cases in the order they are tested. -/
def streamCheck (ss : Code) (c : List Byte) (final : Bool) : StreamResult :=
  if c.length = 0 then ⟨false, 0, ss⟩
  else
    match firstError ss c with
    | some k => ⟨true, lastAccept ss c k, ACC⟩
    | none =>
      if stateAt ss c c.length = ACC then ⟨false, c.length, ACC⟩
      else if final then ⟨true, lastAccept ss c c.length, ACC⟩
      else ⟨false, lastAccept ss c c.length, stateAt ss c c.length⟩

/-- The registers `scan` folds over, and whether the loop broke (R131). -/
structure Scan where
  fsm   : Code
  pos   : Nat
  la    : Nat
  broke : Bool
  deriving DecidableEq, Repr

/-- The loop of `scan` from the middle of a buffer. -/
def scanFrom (stop : Code → Bool) (s : Code) (pos la : Nat) : List Byte → Scan
  | [] => ⟨s, pos, la, false⟩
  | b :: bs =>
    let s' := delta s b
    let la' := if s' = ACC then pos + 1 else la
    if stop s' then ⟨s', pos + 1, la', true⟩ else scanFrom stop s' (pos + 1) la' bs

/-- `scan(s0, b, stop)` (R131). -/
def scan (s0 : Code) (b : List Byte) (stop : Code → Bool) : Scan := scanFrom stop s0 0 0 b

end Sys2Proof.Machine
end

