-- ==== Sys2Proof/Machine/Transaction.lean ====
section
/-! DEFINITION. Transactions as the beats that carry them (R76), and how many steps they take (R270). -/

namespace Sys2Proof.Machine

/-- The cycle that presents an instruction's beat. -/
def presentInstr (i : Instr) : PortIn := PortIn.present (encode i)

/-- `BYTES h0 ... hk` (R76). -/
def bytesInput (b : List Byte) : List PortIn := b.map (fun x => presentInstr (.byte x))

/-- A begin command, the buffer's bytes, `END` (R76). -/
def txInput (begin : Instr) (b : List Byte) : List PortIn :=
  presentInstr begin :: (bytesInput b ++ [presentInstr (.endTx 0)])

/-- The machine as the driver presents one transaction and then waits; `n + 2` beats (R270). -/
def runTx (begin : Instr) (b : List Byte) (s : State) : Host.Outcome State Fault Refusal :=
  Sys2Proof.core.run (b.length + 2) { s with input := txInput begin b }

/-- `stream_check(c, is_final=f)` as a transaction (R76); `none` if the machine stopped. -/
def runChunk (c : List Byte) (final : Bool) (s : State) : Option State :=
  match runTx (.schk 0 final) c s with
  | .next t => some t
  | .fault _ => none
  | .refused _ => none

/-- A stream fed piece by piece, `is_final` on the last only (R189): the state after each piece's `END`. -/
def runStream : State → List (List Byte) → Option (List State)
  | _, [] => some []
  | s, [c] => (runChunk c true s).map (fun t => [t])
  | s, c :: d :: rest =>
    match runChunk c false s with
    | none => none
    | some t => (runStream t (d :: rest)).map (fun ts => t :: ts)

/-- The `BYTE` beats of a transaction at any width and for either value of `FASTPATH` (R131). -/
def Regs.feed {w : Nat} (fast : Bool) : List Byte → Regs w → Except Fault (Regs w)
  | [], r => .ok r
  | b :: bs, r =>
    match r.byteBeat fast (romRead b) b with
    | .ok r' => Regs.feed fast bs r'
    | .error f => .error f

end Sys2Proof.Machine
end

