-- ==== Sys2Proof/Safety.lean ====
section
/-! DEFINITION. What claims about runs are stated in: the invariants of R15, protocol violations (R65, R227), the phase
table of R129, and when two drivers differ in data only (R204). -/

namespace Sys2Proof.Machine

/-- The modes in which the sequencer stops early (R126, R15 (f)). -/
def isStopping (m : Code) : Bool := m = opWF || m = opCHK || m = opMSL || m = opSCHK

/-- The invariants of R15, clause by clause, with R18 and R19's "`MODE` holds no other value". Clause (d), `PH` is never 3,
is the type `Phase`. Clauses (c) and (e) are "under the bound": `NLK` is the number of bytes consumed when `FASTPATH`
is false (R131), and it does not wrap. -/
structure Regs.Inv {w : Nat} (r : Regs w) : Prop where
  /-- (a), first half. -/
  fsmCode : r.fsm.toNat ≤ 8
  /-- (a), second half. -/
  ssCode : 1 ≤ r.ss.toNat ∧ r.ss.toNat ≤ 8
  /-- (b). -/
  acceptPoint : r.fsm = ACC → r.la = r.pos
  /-- (c). -/
  laBound : r.nlk < 2 ^ w → r.la ≤ r.pos
  /-- (e). -/
  errConsumed : r.fsm = ERR → r.nlk < 2 ^ w → r.pos ≠ 0
  /-- (f). -/
  stopReason : r.ph = .stop → (isStopping r.mode = true ∧ r.fsm = ERR) ∨ (r.mode = opMSL ∧ r.fsm = ACC)
  /-- R126: while a transaction is open, `MODE` is a begin opcode. -/
  modeOpen : r.ph ≠ .idle → isBegin r.mode = true
  /-- R131 with `FASTPATH` false: `POS` is `NLK` modulo `2^LENW`. -/
  posCount : r.pos = BitVec.ofNat w r.nlk
  /-- Behind (e): a state becomes `ERR` only by a consumed byte (R15). -/
  errCount : r.fsm = ERR → 1 ≤ r.nlk

/-- The invariant of a state: "any value >= 1 allowed" for `LENW` (R5), and R15 for the registers. -/
def State.Inv (s : State) : Prop := 1 ≤ s.lenw ∧ s.regs.Inv

/-- The violations V1 to V5 of R227: reserved opcodes, `BYTE` and `END` in `IDLE`, begin commands and `SINIT` elsewhere.
A byte-class instruction is a `BYTE` beat. -/
def isViolation (i : Instr) (ph : Phase) : Bool :=
  match i with
  | .nop _ => false
  | .wf _ => decide (ph ≠ .idle)
  | .chk _ => decide (ph ≠ .idle)
  | .msl _ => decide (ph ≠ .idle)
  | .sinit _ => decide (ph ≠ .idle)
  | .schk _ _ => decide (ph ≠ .idle)
  | .wfct _ => decide (ph ≠ .idle)
  | .chkct _ => decide (ph ≠ .idle)
  | .byte _ => decide (ph = .idle)
  | .endTx _ => decide (ph = .idle)
  | .reserved8 _ => true
  | .reservedB _ => true
  | .reservedC _ => true
  | .reservedD _ => true
  | .reservedE _ => true
  | .reservedF _ => true
  | .ascii _ => decide (ph = .idle)
  | .contA _ => decide (ph = .idle)
  | .contB _ => decide (ph = .idle)
  | .contC _ => decide (ph = .idle)
  | .badC0 _ => decide (ph = .idle)
  | .lead2 _ => decide (ph = .idle)
  | .lead3E0 => decide (ph = .idle)
  | .lead3 _ => decide (ph = .idle)
  | .lead3ED => decide (ph = .idle)
  | .lead4F0 => decide (ph = .idle)
  | .lead4 _ => decide (ph = .idle)
  | .lead4F4 => decide (ph = .idle)
  | .badF5 _ => decide (ph = .idle)

/-- The begin commands (R62), by instruction. -/
def begins : Instr → Bool
  | .wf _ => true
  | .chk _ => true
  | .msl _ => true
  | .schk _ _ => true
  | .wfct _ => true
  | .chkct _ => true
  | _ => false

/-- The `END` command, by instruction. -/
def ends : Instr → Bool
  | .endTx _ => true
  | _ => false

/-- A data byte: a `BYTE` beat in either format. -/
def isData : Instr → Bool
  | .byte _ => true
  | .ascii _ => true
  | .contA _ => true
  | .contB _ => true
  | .contC _ => true
  | .badC0 _ => true
  | .lead2 _ => true
  | .lead3E0 => true
  | .lead3 _ => true
  | .lead3ED => true
  | .lead4F0 => true
  | .lead4 _ => true
  | .lead4F4 => true
  | .badF5 _ => true
  | _ => false

/-- The stop condition of R126 in a transaction, written out: `MSL` stops on `ERR` and `ACC`, `WFCT` and `CHKCT` never,
`WF`, `CHK` and `SCHK` on `ERR`. -/
def stopNow (m s' : Code) : Bool :=
  if m = opMSL then s' = ERR || s' = ACC
  else if m = opWFCT || m = opCHKCT then false
  else s' = ERR

/-- The registers of R122 after a byte consumed in `RUN` takes the FSM to `s'`, with one ROM read. -/
def Regs.steppedTo {w : Nat} (s' : Code) (r : Regs w) : Regs w :=
  { r with
    fsm := s'
    pos := r.pos + 1
    la := if s' = ACC then r.pos + 1 else r.la
    ph := if stopNow r.mode s' then .stop else .run
    nlk := r.nlk + 1 }

/-- The phase after an instruction, by the table of R129; `s'` is the state after the instruction. -/
def phaseAfter (i : Instr) (ph : Phase) (m s' : Code) : Phase :=
  match ph with
  | .idle => if begins i then .run else .idle
  | .run => if isData i then (if stopNow m s' then .stop else .run) else if ends i then .idle else .run
  | .stop => if ends i then .idle else .stop

/-- The registers that are no offset: everything but `POS`, `LA` and `R_LEN`, whose width is `LENW` (R5). -/
def Regs.control {w : Nat} (r : Regs w) : Regs 0 :=
  { fsm := r.fsm, ss := r.ss, pos := 0, la := 0, ph := r.ph, mode := r.mode, fin := r.fin,
    rDone := r.rDone, rErr := r.rErr, rLen := 0, perr := r.perr, nlk := r.nlk }

/-- Two cycles that differ in nothing but a data byte (R204). -/
def SameButData (c d : PortIn) : Prop :=
  c.rst = d.rst ∧ c.valid = d.valid ∧
    (c.beat = d.beat ∨ (isData (decodeBeat c.beat) = true ∧ isData (decodeBeat d.beat) = true))

end Sys2Proof.Machine
end

