-- ==== Sys2Proof/Certificates/Slice0/Obligations.lean ====
section
/-! DEFINITION. The statements for the provers. Every next state is written out in the spec's registers and values, so an
equation `exec i s = .next t` is the instruction's result, its frame and its completion in one. -/

open Sys2Proof Sys2Proof.Machine

/-! ## Reset, cycles, steps -/

/-- R27: the registers after reset, for an instance of any `LENW`; `State.reset` is the instance of the default, 32 (R5). -/
def Obligations.ResetHoldsR27Values : Prop :=
  (∀ w : Nat, State.resetAt w =
    { lenw := w
      regs :=
        { fsm := 0x1, ss := 0x1, pos := 0, la := 0, ph := .idle, mode := 0x0, fin := false,
          rDone := false, rErr := false, rLen := 0, perr := false, nlk := 0 }
      input := [] }) ∧
  State.reset = State.resetAt 32

/-- The reset state of an instance of any `LENW` from 1 up (R5) meets the invariant of R15. -/
def Obligations.ResetMeetsInvariant : Prop := ∀ w : Nat, 1 ≤ w → (State.resetAt w).Inv

/-- R15: every step from a state that meets the invariant leads to one that does. Clauses (c) and (e) count bytes by
`NLK`, which rests on `FASTPATH` = false (log entry 3). -/
def Obligations.StepKeepsInvariant : Prop :=
  ∀ s t : State, s.Inv → step s = .next t → t.Inv

/-- R221: from a state that meets the invariant no cycle faults or is refused. -/
def Obligations.StepCompletesUnderInvariant : Prop :=
  ∀ s : State, s.Inv → ∃ t, step s = .next t

/-- R15: whatever the host drives from reset, at any `LENW` from 1 up, every state the machine reaches meets the invariant,
and it never stops. -/
def Obligations.EveryRunFromResetMeetsInvariant : Prop :=
  ∀ (w : Nat) (cs : List PortIn) (n : Nat), 1 ≤ w → ∃ t : State,
    Sys2Proof.core.run n { State.resetAt w with input := cs } = .next t ∧ t.lenw = w ∧ t.Inv

/-- R5: `LENW` is a parameter of the instance. No step changes it, a reset included, and what a step does never depends on
it but through the offsets: instances of two widths that agree on every register that is no offset, and on whether `POS`
is 0, agree on all of them again after any step; only the `SCHK` arm of `END` asks whether `POS` is 0 (R130). -/
def Obligations.WidthIsFixedParameter : Prop :=
  (∀ s t : State, step s = .next t → t.lenw = s.lenw) ∧
  (∀ s s' t : State, s.regs.control = s'.regs.control → (s.regs.pos = 0 ↔ s'.regs.pos = 0) → s.input = s'.input →
    step s = .next t → ∃ t', step s' = .next t' ∧ t.regs.control = t'.regs.control ∧ t.input = t'.input)

/-- A step with an accepted beat runs the instruction the beat decodes to, and moves past its cycle; the word of a
well-formed instruction runs that instruction. -/
def Obligations.StepRunsDecodedBeat : Prop :=
  (∀ (s : State) (x : Beat) (rest : List PortIn), s.input = PortIn.present x :: rest →
    step s = exec (decodeBeat x) { s with input := rest }) ∧
  (∀ (s : State) (i : Instr) (rest : List PortIn), i.wellFormed = true → s.input = presentInstr i :: rest →
    step s = exec i { s with input := rest })

/-- R250: a cycle with `rst = 1` gives the reset values whatever else the cycle carries, its beat is lost, and no other
cycle clears `PERR`. -/
def Obligations.ResetCycleOverridesBeat : Prop :=
  (∀ (s : State) (valid : Bool) (x : Beat) (rest : List PortIn), s.input = ⟨true, valid, x⟩ :: rest →
    step s = .next
      { lenw := s.lenw
        regs :=
          { fsm := 0x1, ss := 0x1, pos := 0, la := 0, ph := .idle, mode := 0x0, fin := false,
            rDone := false, rErr := false, rLen := 0, perr := false, nlk := 0 }
        input := rest }) ∧
  (∀ (s t : State), step s = .next t → s.regs.perr = true → t.regs.perr = false →
    ∃ c rest, s.input = c :: rest ∧ c.rst = true)

/-- R26: in a cycle with `rst = 0` and `in_valid = 0` no register changes; so too when the driver's list is empty, which is
the model's own convention (log entry 1). -/
def Obligations.CycleWithoutBeatChangesNothing : Prop :=
  (∀ (s : State) (x : Beat) (rest : List PortIn), s.input = ⟨false, false, x⟩ :: rest →
    step s = .next { s with input := rest }) ∧
  (∀ s : State, s.input = [] → step s = .next s)

/-! ## Encodings -/

/-- Every well-formed instruction decodes back from its own word. -/
def Obligations.DecodeOfEncodeIsInstruction : Prop :=
  ∀ i : Instr, i.wellFormed = true → decodeBeat (encode i) = i

/-- Every word of either format decodes to a well-formed instruction whose encoding is that word: no bit is dropped. -/
def Obligations.EncodeOfDecodeIsWord : Prop :=
  ∀ x : Beat, (decodeBeat x).wellFormed = true ∧ encode (decodeBeat x) = x

/-- R61, R64, R73: every word matches exactly one row of the opcode table and decodes to the instruction of that row. -/
def Obligations.DecodeFollowsOpcodeTable : Prop :=
  (∀ w : Wires, (commandRows.filter (fun r => r.matches w)).map TableRow.mnemonic
    = [(decodeBeat (.b12 w)).mnemonic]) ∧
  (∀ b : Byte, (classRows.filter (fun r => r.matches (0x0#4 ++ b))).map TableRow.mnemonic
    = [(decodeBeat (.byte8 b)).mnemonic])

/-- R61, R75: words written out from the encodings decode to the commands they stand for. -/
def Obligations.SampleWordsDecode : Prop :=
  decodeBeat (.b12 0x000) = .nop 0 ∧ decodeBeat (.b12 0x100) = .wf 0 ∧ decodeBeat (.b12 0x200) = .chk 0 ∧
  decodeBeat (.b12 0x501) = .schk 0 true ∧ decodeBeat (.b12 0x6E2) = .byte 0xE2 ∧
  decodeBeat (.b12 0x700) = .endTx 0 ∧ decodeBeat (.b12 0xA00) = .chkct 0 ∧
  decodeBeat (.b12 0xF12) = .reservedF 0x12 ∧ decodeBeat (.byte8 0xED) = .lead3ED ∧
  decodeTableWord 16 0x5FE = some (.schk 0x7F false) ∧ decodeTableWord 8 0xC2 = some (.lead2 0xC2) ∧
  decodeTableWord 16 0x1000 = none

/-- R63: the operand bits an opcode does not use have no effect, whatever they hold. -/
def Obligations.IgnoredOperandBitsHaveNoEffect : Prop :=
  ∀ (d e : Byte) (g h : BitVec 7) (f : Bool) (s : State),
    exec (.nop d) s = exec (.nop e) s ∧ exec (.wf d) s = exec (.wf e) s ∧ exec (.chk d) s = exec (.chk e) s ∧
    exec (.msl d) s = exec (.msl e) s ∧ exec (.sinit d) s = exec (.sinit e) s ∧
    exec (.schk g f) s = exec (.schk h f) s ∧ exec (.endTx d) s = exec (.endTx e) s ∧
    exec (.wfct d) s = exec (.wfct e) s ∧ exec (.chkct d) s = exec (.chkct e) s

/-! ## The transition function and the ROM -/

/-- R72: the field of state code `c` is at bits `[4c+3:4c]`; a code of 9 or more gives `ERR`. -/
def Obligations.UnpackSelectsField : Prop :=
  (∀ (row : Row) (s : Code) (j : Nat), s.toNat ≤ 8 → j < 4 →
    (unpack row s).getLsbD j = row.getLsbD (4 * s.toNat + j)) ∧
  (∀ (row : Row) (s : Code), 9 ≤ s.toNat → unpack row s = 0x0)

/-- R90 to R95: the field read from the ROM is the successor the rules of the grammar give, for every state code and
byte. -/
def Obligations.RomImplementsGrammar : Prop :=
  ∀ (s : Code) (b : Byte), delta s b = deltaRule s b

/-- R96: 256 rows, each the row of its byte's class, with the rule's checksums. -/
def Obligations.RomListsClassRows : Prop :=
  rom.length = 256 ∧ rom.dedup.length = 12 ∧ (rom.filter (fun r => decide (r ≠ 0))).length = 243 ∧
  (rom.map BitVec.toNat).sum = 245967114432 ∧ rom.foldl (fun x r => x ^^^ r) 0 = 0x000000080#36 ∧
  ∀ b : Byte, romRead b =
    (match decodeClass b with
      | .ascii _ => 0x000000010
      | .contA _ => 0x302032100
      | .contB _ => 0x032032100
      | .contC _ => 0x030232100
      | .lead2 _ => 0x000000020
      | .lead3E0 => 0x000000050
      | .lead3 _ => 0x000000030
      | .lead3ED => 0x000000060
      | .lead4F0 => 0x000000070
      | .lead4 _ => 0x000000040
      | .lead4F4 => 0x000000080
      | _ => 0x000000000)

/-- A `BYTE` beat, which reads the ROM at its byte, does what the rule of the byte's class says. -/
def Obligations.ByteDoesWhatItsClassSays : Prop :=
  ∀ (b : Byte) (s : State), exec (.byte b) s = exec (decodeClass b) s

/-- R98, R99: the FSM accepts exactly the concatenations of sequences of the eight shapes. -/
def Obligations.FsmAcceptsShapeConcats : Prop :=
  ∀ b : List Byte, runDelta ACC b = ACC ↔ IsShapeConcat b

/-- R98, R155 (a): the FSM accepts, and `is_well_formed` is true of, exactly the concatenations of minimal encodings of
scalar values. The bit layout of an encoding is PRESUMED (log entry 7): the spec gives none. -/
def Obligations.WellFormedIsScalarEncodings : Prop :=
  ∀ b : List Byte,
    (runDelta ACC b = ACC ↔ ∃ cs : List Nat, (∀ c ∈ cs, isScalar c = true) ∧ cs.flatMap encodeScalar = b) ∧
    (isWellFormed b = true ↔ ∃ cs : List Nat, (∀ c ∈ cs, isScalar c = true) ∧ cs.flatMap encodeScalar = b)

/-- R100: what the state reached after `k` bytes says of the bytes since the last Accept point. -/
def Obligations.StatesTellPendingBytes : Prop :=
  ∀ (b : List Byte) (k : Nat), k ≤ b.length →
    (stateAt ACC b k = ACC → lastAccept ACC b k = k) ∧
    (isPending (stateAt ACC b k) = true →
      lastAccept ACC b k < k ∧
      (∃ q, q ≠ [] ∧ isShape ((b.take k).drop (lastAccept ACC b k) ++ q) = true) ∧
      ∀ q, isShape ((b.take k).drop (lastAccept ACC b k) ++ q) = completes (stateAt ACC b k) q) ∧
    (stateAt ACC b k = ERR →
      ∃ m, ∀ q, isShape (((b.take k).drop (lastAccept ACC b k)).take m ++ q) = false)

/-! ## The commands -/

/-- R120: opcode 0x0 is `NOP` whatever its operand holds; it changes no register in any phase, and a `NOP` beat put in or
taken out anywhere changes nothing later. -/
def Obligations.NopChangesNothingAnywhere : Prop :=
  (∀ w : Wires, opField w = 0x0 → decodeBeat (.b12 w) = .nop (datField w)) ∧
  (∀ (d : Byte) (s : State), exec (.nop d) s = .next s) ∧
  (∀ (d : Byte) (s : State) (xs ys : List PortIn),
    Sys2Proof.core.run (xs.length + ys.length + 1) { s with input := xs ++ presentInstr (.nop d) :: ys }
      = Sys2Proof.core.run (xs.length + ys.length) { s with input := xs ++ ys })

/-- R121: each begin command opens its transaction in `IDLE`, and is a violation in `RUN` and `STOP`. -/
def Obligations.BeginCommandsOpenTransaction : Prop :=
  ∀ (d : Byte) (g : BitVec 7) (f : Bool) (s : State),
    (s.regs.ph = .idle →
      exec (.wf d) s = .next (s.mapRegs fun r => { r with
        mode := 0x1, fin := false, fsm := 0x1, pos := 0, la := 0, ph := .run, rDone := false, nlk := 0 }) ∧
      exec (.chk d) s = .next (s.mapRegs fun r => { r with
        mode := 0x2, fin := false, fsm := 0x1, pos := 0, la := 0, ph := .run, rDone := false, nlk := 0 }) ∧
      exec (.msl d) s = .next (s.mapRegs fun r => { r with
        mode := 0x3, fin := false, fsm := 0x1, pos := 0, la := 0, ph := .run, rDone := false, nlk := 0 }) ∧
      exec (.schk g f) s = .next (s.mapRegs fun r => { r with
        mode := 0x5, fin := f, fsm := r.ss, pos := 0, la := 0, ph := .run, rDone := false, nlk := 0 }) ∧
      exec (.wfct d) s = .next (s.mapRegs fun r => { r with
        mode := 0x9, fin := false, fsm := 0x1, pos := 0, la := 0, ph := .run, rDone := false, nlk := 0 }) ∧
      exec (.chkct d) s = .next (s.mapRegs fun r => { r with
        mode := 0xA, fin := false, fsm := 0x1, pos := 0, la := 0, ph := .run, rDone := false, nlk := 0 })) ∧
    (s.regs.ph ≠ .idle →
      exec (.wf d) s = .next (s.mapRegs fun r => { r with perr := true }) ∧
      exec (.chk d) s = .next (s.mapRegs fun r => { r with perr := true }) ∧
      exec (.msl d) s = .next (s.mapRegs fun r => { r with perr := true }) ∧
      exec (.schk g f) s = .next (s.mapRegs fun r => { r with perr := true }) ∧
      exec (.wfct d) s = .next (s.mapRegs fun r => { r with perr := true }) ∧
      exec (.chkct d) s = .next (s.mapRegs fun r => { r with perr := true }))

/-- R180: opcode 0x4 is `SINIT` whatever its operand holds; it writes `SS` alone in `IDLE`, and is a violation elsewhere. -/
def Obligations.SinitResetsStreamState : Prop :=
  (∀ w : Wires, opField w = 0x4 → decodeBeat (.b12 w) = .sinit (datField w)) ∧
  ∀ (d : Byte) (s : State),
    (s.regs.ph = .idle → exec (.sinit d) s = .next (s.mapRegs fun r => { r with ss := 0x1 })) ∧
    (s.regs.ph ≠ .idle → exec (.sinit d) s = .next (s.mapRegs fun r => { r with perr := true }))

/-- R64: a beat with a reserved opcode is a violation in every phase: no register changes but `PERR <- 1`. -/
def Obligations.ReservedOpcodesSetPerrOnly : Prop :=
  (∀ (d : Byte) (s : State),
    exec (.reserved8 d) s = .next (s.mapRegs fun r => { r with perr := true }) ∧
    exec (.reservedB d) s = .next (s.mapRegs fun r => { r with perr := true }) ∧
    exec (.reservedC d) s = .next (s.mapRegs fun r => { r with perr := true }) ∧
    exec (.reservedD d) s = .next (s.mapRegs fun r => { r with perr := true }) ∧
    exec (.reservedE d) s = .next (s.mapRegs fun r => { r with perr := true }) ∧
    exec (.reservedF d) s = .next (s.mapRegs fun r => { r with perr := true })) ∧
  (∀ (w : Wires) (s : State), opField w ∈ ([0x8, 0xB, 0xC, 0xD, 0xE, 0xF] : List Code) →
    exec (decodeBeat (.b12 w)) s = .next (s.mapRegs fun r => { r with perr := true }))

/-- R227: the violations V1 to V5 set `PERR`, and nothing else is a violation. -/
def Obligations.ViolationsAreExactlyListed : Prop :=
  ∀ (i : Instr) (s t : State), exec i s = .next t →
    t.regs.perr = (s.regs.perr || isViolation i s.regs.ph)

/-- R226: a violating beat is ignored but for `PERR`, `PERR` changes nothing that a later beat does, and it stays 1 in every
cycle but one of reset. -/
def Obligations.ViolationLeavesTransactionAlone : Prop :=
  (∀ (i : Instr) (s : State), isViolation i s.regs.ph = true →
    exec i s = .next (s.mapRegs fun r => { r with perr := true })) ∧
  (∀ (i : Instr) (s t : State) (p : Bool), exec i s = .next t →
    exec i (s.mapRegs fun r => { r with perr := p })
      = .next (t.mapRegs fun r => { r with perr := p || isViolation i s.regs.ph })) ∧
  (∀ s t : State, step s = .next t → s.regs.perr = true → (∀ c rest, s.input = c :: rest → c.rst = false) →
    t.regs.perr = true)

/-- R122, R126: opcode 0x6 is `BYTE`; a byte in `RUN` steps the FSM through its ROM row, moves the cursor, keeps
`last_accept`, and stops the sequencer by mode; in `STOP` it changes nothing and in `IDLE` it is a violation. `NLK` counts
the ROM read unless R135 lets the beat skip it, for either value of `Config.fastpath`. -/
def Obligations.ByteStepsFsm : Prop :=
  (∀ w : Wires, opField w = 0x6 → decodeBeat (.b12 w) = .byte (datField w)) ∧
  ∀ (b : Byte) (s : State),
    (s.regs.ph = .idle → exec (.byte b) s = .next (s.mapRegs fun r => { r with perr := true })) ∧
    (s.regs.ph = .stop → exec (.byte b) s = .next s) ∧
    (s.regs.ph = .run → isBegin s.regs.mode = true →
      exec (.byte b) s = .next (s.mapRegs fun r => { r with
        fsm := delta r.fsm b
        pos := r.pos + 1
        la := if delta r.fsm b = 0x1 then r.pos + 1 else r.la
        ph :=
          if (r.mode = 0x1 ∨ r.mode = 0x2 ∨ r.mode = 0x5) ∧ delta r.fsm b = 0x0 then .stop
          else if r.mode = 0x3 ∧ (delta r.fsm b = 0x0 ∨ delta r.fsm b = 0x1) then .stop
          else .run
        nlk :=
          if Config.fastpath = true ∧ r.fsm = 0x1 ∧ b.getLsbD 7 = false ∧ r.mode.getLsbD 3 = false then r.nlk
          else r.nlk + 1 }))

/-- R127: in `STOP` a data byte of any class is accepted and discarded; in `IDLE` it is violation V2. -/
def Obligations.ByteOutsideRunIsNotConsumed : Prop :=
  ∀ (i : Instr) (s : State), isData i = true →
    (s.regs.ph = .stop → exec i s = .next s) ∧
    (s.regs.ph = .idle → exec i s = .next (s.mapRegs fun r => { r with perr := true }))

/-- R101 to R105: the classes that begin no multi-byte sequence: their bytes, their rows, and the successor of every
state. -/
def Obligations.AsciiContinuationAndC0Classes : Prop :=
  (∀ b : Byte, Byte.within 0x00 0x7F b = true → decodeClass b = .ascii b ∧ romRead b = 0x000000010 ∧
    ∀ s : Code, delta s b = if s = ACC then ACC else ERR) ∧
  (∀ b : Byte, Byte.within 0x80 0x8F b = true → decodeClass b = .contA b ∧ romRead b = 0x302032100 ∧
    ∀ s : Code, delta s b =
      if s = T1 then ACC else if s = T2 then T1 else if s = T3 then T2 else if s = ED then T1
      else if s = F4 then T2 else ERR) ∧
  (∀ b : Byte, Byte.within 0x90 0x9F b = true → decodeClass b = .contB b ∧ romRead b = 0x032032100 ∧
    ∀ s : Code, delta s b =
      if s = T1 then ACC else if s = T2 then T1 else if s = T3 then T2 else if s = ED then T1
      else if s = F0 then T2 else ERR) ∧
  (∀ b : Byte, Byte.within 0xA0 0xBF b = true → decodeClass b = .contC b ∧ romRead b = 0x030232100 ∧
    ∀ s : Code, delta s b =
      if s = T1 then ACC else if s = T2 then T1 else if s = T3 then T2 else if s = E0 then T1
      else if s = F0 then T2 else ERR) ∧
  (∀ b : Byte, Byte.within 0xC0 0xC1 b = true → decodeClass b = .badC0 b ∧ romRead b = 0x000000000 ∧
    ∀ s : Code, delta s b = ERR)

/-- R106 to R113: the lead-byte classes and the bytes above F4: their bytes, their rows, and the successor of every
state. -/
def Obligations.LeadAndF5Classes : Prop :=
  (∀ b : Byte, Byte.within 0xC2 0xDF b = true → decodeClass b = .lead2 b ∧ romRead b = 0x000000020 ∧
    ∀ s : Code, delta s b = if s = ACC then T1 else ERR) ∧
  (decodeClass 0xE0 = .lead3E0 ∧ romRead 0xE0 = 0x000000050 ∧ ∀ s : Code, delta s 0xE0 = if s = ACC then E0 else ERR) ∧
  (∀ b : Byte, (Byte.within 0xE1 0xEC b || Byte.within 0xEE 0xEF b) = true →
    decodeClass b = .lead3 b ∧ romRead b = 0x000000030 ∧ ∀ s : Code, delta s b = if s = ACC then T2 else ERR) ∧
  (decodeClass 0xED = .lead3ED ∧ romRead 0xED = 0x000000060 ∧ ∀ s : Code, delta s 0xED = if s = ACC then ED else ERR) ∧
  (decodeClass 0xF0 = .lead4F0 ∧ romRead 0xF0 = 0x000000070 ∧ ∀ s : Code, delta s 0xF0 = if s = ACC then F0 else ERR) ∧
  (∀ b : Byte, Byte.within 0xF1 0xF3 b = true → decodeClass b = .lead4 b ∧ romRead b = 0x000000040 ∧
    ∀ s : Code, delta s b = if s = ACC then T3 else ERR) ∧
  (decodeClass 0xF4 = .lead4F4 ∧ romRead 0xF4 = 0x000000080 ∧ ∀ s : Code, delta s 0xF4 = if s = ACC then F4 else ERR) ∧
  (∀ b : Byte, Byte.within 0xF5 0xFF b = true → decodeClass b = .badF5 b ∧ romRead b = 0x000000000 ∧
    ∀ s : Code, delta s b = ERR)

/-- The step of each byte class in `RUN` (R101 to R113 with R122): the FSM takes the class's successor, the cursor moves, the
sequencer stops by mode. That a class is an instruction, a `BYTE` beat of its own row, is the model's choice (log entry 5). -/
def Obligations.ClassBeatsStepFsm : Prop :=
  ∀ (b : Byte) (s : State), s.regs.ph = .run → isBegin s.regs.mode = true →
    exec (.ascii b) s = .next (s.withRegs { s.regs.steppedTo (if s.regs.fsm = ACC then ACC else ERR) with
      nlk :=
        if Config.fastpath = true ∧ s.regs.fsm = ACC ∧ b.getLsbD 7 = false ∧ s.regs.mode.getLsbD 3 = false then s.regs.nlk
        else s.regs.nlk + 1 }) ∧
    exec (.contA b) s = .next (s.withRegs (s.regs.steppedTo
      (if s.regs.fsm = T1 then ACC else if s.regs.fsm = T2 then T1 else if s.regs.fsm = T3 then T2
       else if s.regs.fsm = ED then T1 else if s.regs.fsm = F4 then T2 else ERR))) ∧
    exec (.contB b) s = .next (s.withRegs (s.regs.steppedTo
      (if s.regs.fsm = T1 then ACC else if s.regs.fsm = T2 then T1 else if s.regs.fsm = T3 then T2
       else if s.regs.fsm = ED then T1 else if s.regs.fsm = F0 then T2 else ERR))) ∧
    exec (.contC b) s = .next (s.withRegs (s.regs.steppedTo
      (if s.regs.fsm = T1 then ACC else if s.regs.fsm = T2 then T1 else if s.regs.fsm = T3 then T2
       else if s.regs.fsm = E0 then T1 else if s.regs.fsm = F0 then T2 else ERR))) ∧
    exec (.badC0 b) s = .next (s.withRegs (s.regs.steppedTo ERR)) ∧
    exec (.lead2 b) s = .next (s.withRegs (s.regs.steppedTo (if s.regs.fsm = ACC then T1 else ERR))) ∧
    exec .lead3E0 s = .next (s.withRegs (s.regs.steppedTo (if s.regs.fsm = ACC then E0 else ERR))) ∧
    exec (.lead3 b) s = .next (s.withRegs (s.regs.steppedTo (if s.regs.fsm = ACC then T2 else ERR))) ∧
    exec .lead3ED s = .next (s.withRegs (s.regs.steppedTo (if s.regs.fsm = ACC then ED else ERR))) ∧
    exec .lead4F0 s = .next (s.withRegs (s.regs.steppedTo (if s.regs.fsm = ACC then F0 else ERR))) ∧
    exec (.lead4 b) s = .next (s.withRegs (s.regs.steppedTo (if s.regs.fsm = ACC then T3 else ERR))) ∧
    exec .lead4F4 s = .next (s.withRegs (s.regs.steppedTo (if s.regs.fsm = ACC then F4 else ERR))) ∧
    exec (.badF5 b) s = .next (s.withRegs (s.regs.steppedTo ERR))

/-- R128: opcode 0x7 is `END` whatever its operand holds; in `IDLE` it is a violation, and it closes an open transaction
with the result of its mode. -/
def Obligations.EndWritesResultByMode : Prop :=
  (∀ w : Wires, opField w = 0x7 → decodeBeat (.b12 w) = .endTx (datField w)) ∧
  ∀ (d : Byte) (s : State),
    (s.regs.ph = .idle → exec (.endTx d) s = .next (s.mapRegs fun r => { r with perr := true })) ∧
    (s.regs.ph ≠ .idle →
      (s.regs.mode = 0x1 ∨ s.regs.mode = 0x9 →
        exec (.endTx d) s = .next (s.mapRegs fun r => { r with
          rErr := decide (r.fsm ≠ 0x1), rLen := 0, rDone := true, ph := .idle })) ∧
      (s.regs.mode = 0x2 ∨ s.regs.mode = 0xA →
        exec (.endTx d) s = .next (s.mapRegs fun r => { r with
          rErr := decide (r.fsm ≠ 0x1), rLen := if r.fsm = 0x1 then r.pos else r.la, rDone := true, ph := .idle })) ∧
      (s.regs.mode = 0x3 →
        exec (.endTx d) s = .next (s.mapRegs fun r => { r with
          rErr := false
          rLen := if r.fsm = 0x0 then BitVec.ofNat s.lenw (max (r.pos - 1).toNat 1) else r.pos
          rDone := true
          ph := .idle })) ∧
      (s.regs.mode = 0x5 →
        exec (.endTx d) s = .next (s.mapRegs fun r =>
          if r.pos = 0 then { r with rErr := false, rLen := 0, rDone := true, ph := .idle }
          else if r.fsm = 0x0 then { r with rErr := true, rLen := r.la, ss := 0x1, rDone := true, ph := .idle }
          else if r.fsm = 0x1 then { r with rErr := false, rLen := r.pos, ss := 0x1, rDone := true, ph := .idle }
          else if r.fin = true then { r with rErr := true, rLen := r.la, ss := 0x1, rDone := true, ph := .idle }
          else { r with rErr := false, rLen := r.la, ss := r.fsm, rDone := true, ph := .idle })))

/-- R184: the five cases of `END` in `SCHK` mode, in the rule's order. -/
def Obligations.EndReportsChunkResult : Prop :=
  ∀ (d : Byte) (s : State), s.regs.ph ≠ .idle → s.regs.mode = 0x5 →
    (s.regs.pos = 0 →
      exec (.endTx d) s = .next (s.mapRegs fun r => { r with
        rErr := false, rLen := 0, rDone := true, ph := .idle })) ∧
    (s.regs.pos ≠ 0 → s.regs.fsm = 0x0 →
      exec (.endTx d) s = .next (s.mapRegs fun r => { r with
        rErr := true, rLen := r.la, ss := 0x1, rDone := true, ph := .idle })) ∧
    (s.regs.pos ≠ 0 → s.regs.fsm = 0x1 →
      exec (.endTx d) s = .next (s.mapRegs fun r => { r with
        rErr := false, rLen := r.pos, ss := 0x1, rDone := true, ph := .idle })) ∧
    (s.regs.pos ≠ 0 → s.regs.fsm ≠ 0x0 → s.regs.fsm ≠ 0x1 → s.regs.fin = true →
      exec (.endTx d) s = .next (s.mapRegs fun r => { r with
        rErr := true, rLen := r.la, ss := 0x1, rDone := true, ph := .idle })) ∧
    (s.regs.pos ≠ 0 → s.regs.fsm ≠ 0x0 → s.regs.fsm ≠ 0x1 → s.regs.fin = false →
      exec (.endTx d) s = .next (s.mapRegs fun r => { r with
        rErr := false, rLen := r.la, ss := r.fsm, rDone := true, ph := .idle }))

/-! ## Whole-machine rules, over all instructions -/

/-- R129: the phase after every instruction is the one of the table; there is no way from `STOP` back to `RUN`. -/
def Obligations.PhasesFollowTable : Prop :=
  ∀ (i : Instr) (s t : State), exec i s = .next t →
    t.regs.ph = phaseAfter i s.regs.ph s.regs.mode t.regs.fsm

/-- R12, R190: only `SINIT` in `IDLE` and the `END` of an `SCHK` transaction write the Stream State. -/
def Obligations.OnlyStreamingWritesStreamState : Prop :=
  ∀ (i : Instr) (s t : State), exec i s = .next t → t.regs.ss ≠ s.regs.ss →
    ((∃ d, i = .sinit d) ∧ s.regs.ph = .idle) ∨
    ((∃ d, i = .endTx d) ∧ s.regs.ph ≠ .idle ∧ s.regs.mode = opSCHK)

/-- R21: a begin command clears `R_DONE` and keeps the rest of the result, `END` sets `R_DONE` and writes the result, and no
other beat writes a result register. -/
def Obligations.OnlyEndWritesResult : Prop :=
  ∀ (i : Instr) (s t : State), exec i s = .next t →
    ∃ r : Regs s.lenw, t = s.withRegs r ∧
      r.rDone =
        (if begins i ∧ s.regs.ph = .idle then false
         else if ends i ∧ s.regs.ph ≠ .idle then true else s.regs.rDone) ∧
      (¬(ends i = true ∧ s.regs.ph ≠ .idle) → r.rErr = s.regs.rErr ∧ r.rLen = s.regs.rLen)

/-- R11, R13, R14, R19, R20: `MODE` and `FIN` are written only by an accepted begin command; `S`, `POS`, `LA` (and the ghost
`NLK`) only by that and by a byte in `RUN`; the width and the driver's cycles by no instruction. -/
def Obligations.OnlyBeginAndByteMoveCursor : Prop :=
  ∀ (i : Instr) (s t : State), exec i s = .next t →
    ∃ r : Regs s.lenw, t = s.withRegs r ∧
      (¬(begins i = true ∧ s.regs.ph = .idle) → r.mode = s.regs.mode ∧ r.fin = s.regs.fin) ∧
      (¬(begins i = true ∧ s.regs.ph = .idle) → ¬(isData i = true ∧ s.regs.ph = .run) →
        r.fsm = s.regs.fsm ∧ r.pos = s.regs.pos ∧ r.la = s.regs.la ∧ r.nlk = s.regs.nlk)

/-- R135: at every width the fast path changes no register but the ghost `NLK`, is never taken with `MODE[3] = 1`, and
skips the lookup only under its conditions. -/
def Obligations.FastPathIsTransparent : Prop :=
  ∀ (w : Nat) (b : Byte) (r : Regs w),
    ((r.byteBeat true (romRead b) b).map (fun x => { x with nlk := 0 })
      = (r.byteBeat false (romRead b) b).map (fun x => { x with nlk := 0 })) ∧
    (r.mode.getLsbD 3 = true → r.byteBeat true (romRead b) b = r.byteBeat false (romRead b) b) ∧
    (∀ x, r.ph = .run → r.byteBeat true (romRead b) b = .ok x →
      (x.nlk = r.nlk ∨ x.nlk = r.nlk + 1) ∧
      (x.nlk = r.nlk → r.fsm = ACC ∧ b.toNat < 128 ∧ r.mode.toNat < 8))

/-! ## Transactions -/

/-- R131: at every width and for either value of `FASTPATH`, the beats of a transaction compute `scan`, and the result is a
function of the mode, the flag, the start state and the bytes alone. -/
def Obligations.TransactionComputesScan : Prop :=
  ∀ (w : Nat) (fast : Bool) (m s0 : Code) (f : Bool) (b : List Byte), isBegin m = true → b.length ≤ 2 ^ w - 1 →
    (∀ r : Regs w, r.ph = .idle →
      ∃ t, Regs.feed fast b (r.beginTx m s0 f) = .ok t ∧
        t.fsm = (scan s0 b (stopNow m)).fsm ∧ t.pos.toNat = (scan s0 b (stopNow m)).pos ∧
        t.la.toNat = (scan s0 b (stopNow m)).la ∧
        t.ph = (if (scan s0 b (stopNow m)).broke then .stop else .run) ∧
        (fast = false → t.nlk = (scan s0 b (stopNow m)).pos) ∧
        t.mode = m ∧ t.fin = f ∧ t.ss = r.ss ∧ t.rDone = false ∧ t.rErr = r.rErr ∧ t.rLen = r.rLen ∧
        t.perr = r.perr) ∧
    (∀ r r' : Regs w, r.ph = .idle → r'.ph = .idle →
      ∃ t t' u u', Regs.feed fast b (r.beginTx m s0 f) = .ok t ∧ Regs.feed fast b (r'.beginTx m s0 f) = .ok t' ∧
        t.endBeat = .ok u ∧ t'.endBeat = .ok u' ∧
        u.rDone = u'.rDone ∧ u.rErr = u'.rErr ∧ u.rLen = u'.rLen ∧
        (m = opSCHK → r.ss = r'.ss → u.ss = u'.ss))

/-- R154: `CHK` and `WF` transactions report `validate` and `is_well_formed` of the bytes. -/
def Obligations.SingleShotAgreesWithValidate : Prop :=
  ∀ (s : State) (b : List Byte), s.regs.ph = .idle → b.length ≤ 2 ^ s.lenw - 1 →
    (∃ t, runTx (.chk 0) b s = .next t ∧ t.regs.rDone = true ∧
      (t.regs.rErr = false ↔ (validate b).1 = true) ∧ t.regs.rLen.toNat = (validate b).2 ∧
      t.regs.ss = s.regs.ss ∧ t.regs.perr = s.regs.perr ∧ t.regs.ph = .idle) ∧
    (∃ t, runTx (.wf 0) b s = .next t ∧ t.regs.rDone = true ∧
      (t.regs.rErr = false ↔ isWellFormed b = true) ∧ t.regs.rLen = 0 ∧
      t.regs.ss = s.regs.ss ∧ t.regs.perr = s.regs.perr ∧ t.regs.ph = .idle)

/-- R168: an `MSL` transaction reports `msl` of the bytes. -/
def Obligations.ClassifierAgreesWithMsl : Prop :=
  ∀ (s : State) (b : List Byte), s.regs.ph = .idle → b.length ≤ 2 ^ s.lenw - 1 →
    ∃ t, runTx (.msl 0) b s = .next t ∧ t.regs.rDone = true ∧ t.regs.rErr = false ∧
      t.regs.rLen.toNat = msl b ∧ t.regs.ss = s.regs.ss ∧ t.regs.perr = s.regs.perr

/-- R186: an `SCHK` transaction reports `stream_check` of the chunk from the Stream State and leaves `ss'` in it. -/
def Obligations.StreamingAgreesWithStreamCheck : Prop :=
  ∀ (s : State) (c : List Byte) (f : Bool), s.regs.ph = .idle → c.length ≤ 2 ^ s.lenw - 1 →
    ∃ t, runTx (.schk 0 f) c s = .next t ∧ t.regs.rDone = true ∧
      t.regs.rErr = (streamCheck s.regs.ss c f).err ∧ t.regs.rLen.toNat = (streamCheck s.regs.ss c f).len ∧
      t.regs.ss = (streamCheck s.regs.ss c f).ss ∧ t.regs.perr = s.regs.perr

/-- R185: a zero-length chunk is an error-free no-op for either flag and every Stream State, pending ones included. -/
def Obligations.EmptyChunkLeavesStreamPending : Prop :=
  ∀ (s : State) (g : BitVec 7) (f : Bool), s.regs.ph = .idle →
    ∃ t, runTx (.schk g f) [] s = .next t ∧ t.regs.rDone = true ∧ t.regs.rErr = false ∧ t.regs.rLen = 0 ∧
      t.regs.ss = s.regs.ss

/-- R203: the constant-time transactions leave the result registers their counterparts leave. -/
def Obligations.ConstantTimeGivesSameResults : Prop :=
  ∀ (s : State) (b : List Byte), s.regs.ph = .idle → b.length ≤ 2 ^ s.lenw - 1 →
    (∃ t u, runTx (.wf 0) b s = .next t ∧ runTx (.wfct 0) b s = .next u ∧
      u.regs.rDone = t.regs.rDone ∧ u.regs.rErr = t.regs.rErr ∧ u.regs.rLen.toNat = t.regs.rLen.toNat) ∧
    (∃ t u, runTx (.chk 0) b s = .next t ∧ runTx (.chkct 0) b s = .next u ∧
      u.regs.rDone = t.regs.rDone ∧ u.regs.rErr = t.regs.rErr ∧ u.regs.rLen.toNat = t.regs.rLen.toNat)

/-- R202: after any number of bytes of a constant-time transaction, at every width and for either value of `FASTPATH`, every
byte was looked up, the phase is `RUN`, and the result registers are as they were. -/
def Obligations.ConstantTimeLooksUpEveryByte : Prop :=
  ∀ (w : Nat) (fast : Bool) (m : Code) (b : List Byte) (r : Regs w), m = opWFCT ∨ m = opCHKCT → r.ph = .idle →
    ∃ t, Regs.feed fast b (r.beginTx m ACC false) = .ok t ∧
      t.nlk = b.length ∧ t.ph = .run ∧ t.pos = BitVec.ofNat w b.length ∧ t.fsm = runDelta ACC b ∧
      t.rDone = false ∧ t.rErr = r.rErr ∧ t.rLen = r.rLen ∧
      ∃ u, t.endBeat = .ok u ∧ u.nlk = b.length ∧ u.rDone = true

/-- R262: what is left when more than `2^LENW - 1` bytes are fed: the counters are the counts modulo `2^LENW`, `R_ERR` is
still right but for `SCHK`, and an `SCHK` transaction of exactly `2^LENW` consumed bytes is taken for a zero-length chunk. -/
def Obligations.VerdictSurvivesWrap : Prop :=
  ∀ (w : Nat) (fast : Bool) (b : List Byte) (r : Regs w), r.ph = .idle →
    (∀ (m s0 : Code) (f : Bool), isBegin m = true →
      ∃ t, Regs.feed fast b (r.beginTx m s0 f) = .ok t ∧
        t.pos = BitVec.ofNat w (scan s0 b (stopNow m)).pos ∧ t.la = BitVec.ofNat w (scan s0 b (stopNow m)).la) ∧
    (∀ m : Code, m = opWF ∨ m = opCHK ∨ m = opWFCT ∨ m = opCHKCT →
      ∃ t u, Regs.feed fast b (r.beginTx m ACC false) = .ok t ∧ t.endBeat = .ok u ∧
        (u.rErr = false ↔ isWellFormed b = true)) ∧
    (∃ t u, Regs.feed fast b (r.beginTx opMSL ACC false) = .ok t ∧ t.endBeat = .ok u ∧ u.rErr = false) ∧
    (∀ f : Bool, (scan r.ss b (stopNow opSCHK)).pos = 2 ^ w →
      ∃ t u, Regs.feed fast b (r.beginTx opSCHK r.ss f) = .ok t ∧ t.endBeat = .ok u ∧
        u.rErr = false ∧ u.rLen = 0 ∧ u.ss = r.ss)

/-! ## The pure functions -/

/-- R155 (b), (c): the prefix of a valid buffer is all of it; the prefix of an invalid one is shorter, valid, and followed by
bytes that begin with no well-formed sequence. -/
def Obligations.PrefixLengthLocatesMalformation : Prop :=
  ∀ b : List Byte,
    ((validate b).1 = true → (validate b).2 = b.length) ∧
    ((validate b).1 = false →
      (validate b).2 < b.length ∧ (validate (b.take (validate b).2)).1 = true ∧
      ∀ m, isShape ((b.drop (validate b).2).take m) = false)

/-- R169: the bounds of the maximal subpart length. -/
def Obligations.MaximalSubpartBounds : Prop :=
  ∀ b : List Byte, (b ≠ [] → 1 ≤ msl b) ∧ msl b ≤ b.length ∧ (msl b = 0 ↔ b.length = 0) ∧ msl b ≤ 4

/-- R170: `msl` by the shape of the buffer's start. -/
def Obligations.MaximalSubpartByShape : Prop :=
  ∀ b : List Byte, msl b = mslByShape b

/-- R100, R167: `msl` is the length of the longest initial byte sequence that is a prefix of some well-formed encoding, and 1
where there is none. -/
def Obligations.MaximalSubpartIsLongestPrefix : Prop :=
  ∀ b : List Byte, b ≠ [] →
    ((∃ q, isShape (b.take (msl b) ++ q) = true) ∨ msl b = 1) ∧
    ∀ k, msl b < k → k ≤ b.length → ∀ q, isShape (b.take k ++ q) = false

/-- R172: the relation between the two measurements, on buffers and in the registers of a `CHK` transaction before `END`. -/
def Obligations.SubpartFollowsFromCheck : Prop :=
  ∀ b : List Byte, (validate b).1 = false →
    (∀ k, firstError ACC b = some (k + 1) →
      msl (b.drop (validate b).2) = max (k - (validate b).2) 1) ∧
    (firstError ACC b = none → msl (b.drop (validate b).2) = b.length - (validate b).2) ∧
    (∀ s : State, s.regs.ph = .idle → b.length ≤ 2 ^ s.lenw - 1 →
      ∃ t : State, Sys2Proof.core.run (b.length + 1) { s with input := txInput (.chk 0) b } = .next t ∧
        msl (b.drop (validate b).2)
          = if t.regs.fsm = ERR then max (t.regs.pos.toNat - 1 - t.regs.la.toNat) 1
            else t.regs.pos.toNat - t.regs.la.toNat)

/-- R267 (b): the bytes a host must keep of a sequence that began in an earlier chunk are at most three, and `MSL` over
them and the failed chunk gives a length that covers them, so the bytes left to skip lie in the failed chunk. -/
def Obligations.ResumePointLiesInChunk : Prop :=
  ∀ kept c : List Byte, isPending (runDelta ACC kept) = true → lastAccept ACC kept kept.length = 0 →
    kept.length ≤ 3 ∧ kept.length ≤ msl (kept ++ c) ∧ msl (kept ++ c) - kept.length ≤ c.length

/-! ## Streams and ports -/

/-- R189, the verdict: over any chunking into non-empty pieces, some piece reports an error exactly when `check` of the
concatenation is invalid, and if none does the Stream State is Accept at the end. -/
def Obligations.StreamVerdictEqualsSingleShot : Prop :=
  ∀ (s : State) (pieces : List (List Byte)), s.regs.ph = .idle → s.regs.ss = ACC →
    (∀ c ∈ pieces, c ≠ [] ∧ c.length ≤ 2 ^ s.lenw - 1) →
    ∃ ts, runStream s pieces = some ts ∧ ts.length = pieces.length ∧
      ((∃ t ∈ ts, t.regs.rErr = true) ↔ (validate pieces.flatten).1 = false) ∧
      ((∀ t ∈ ts, t.regs.rErr = false) → (ts.getLastD s).regs.ss = ACC)

/-- R189, what holds of the counts: if no piece reports an error, each `R_LEN` is where in its piece the sequence pending at
its end began, 0 if that was in an earlier piece, the piece's length if nothing is pending; the last is its length. -/
def Obligations.StreamLengthsLocatePendingSequence : Prop :=
  ∀ (s : State) (pieces : List (List Byte)) (ts : List State), s.regs.ph = .idle → s.regs.ss = ACC →
    (∀ c ∈ pieces, c ≠ [] ∧ c.length ≤ 2 ^ s.lenw - 1) → runStream s pieces = some ts →
    (∀ t ∈ ts, t.regs.rErr = false) →
    (∀ (k : Nat) (t : State), ts[k]? = some t →
      t.regs.rLen.toNat
        = lastAccept ACC pieces.flatten (pieces.take (k + 1)).flatten.length - (pieces.take k).flatten.length) ∧
    (∀ (k : Nat) (t : State) (c : List Byte), k + 1 = pieces.length → ts[k]? = some t → pieces[k]? = some c →
      t.regs.rLen.toNat = c.length)

/-- R204: two runs whose inputs differ only in data bytes show the same `in_ready`, `res_done` and `perr` after every cycle:
what the ports show of timing does not depend on the data, in any mode. -/
def Obligations.PortTimingIgnoresData : Prop :=
  ∀ (s s' : State), s.Inv → s'.Inv → (s.regs.ph = .idle ↔ s'.regs.ph = .idle) →
    s.regs.rDone = s'.regs.rDone → s.regs.perr = s'.regs.perr → List.Forall₂ SameButData s.input s'.input →
    ∀ n : Nat, ∃ t t' : State, Sys2Proof.core.run n s = .next t ∧ Sys2Proof.core.run n s' = .next t' ∧
      t.regs.ports.inReady = t'.regs.ports.inReady ∧ t.regs.ports.resDone = t'.regs.ports.resDone ∧
      t.regs.ports.perr = t'.regs.ports.perr
end

