-- ==== Sys2Proof/Laws/State.lean ====
section
/-! SUPPORT. One lemma per field per update of the state, so that no proof unfolds a record update. -/

namespace Sys2Proof.Machine

@[simp] theorem withRegs_regs (s : State) (r : Regs s.lenw) : (s.withRegs r).regs = r := rfl
@[simp] theorem withRegs_input (s : State) (r : Regs s.lenw) : (s.withRegs r).input = s.input := rfl
@[simp] theorem withRegs_lenw (s : State) (r : Regs s.lenw) : (s.withRegs r).lenw = s.lenw := rfl
@[simp] theorem withRegs_withRegs (s : State) (r r' : Regs s.lenw) :
    (s.withRegs r).withRegs r' = s.withRegs r' := rfl
@[simp] theorem withRegs_self (s : State) : s.withRegs s.regs = s := rfl
@[simp] theorem mapRegs_regs (s : State) (f : Regs s.lenw → Regs s.lenw) :
    (s.mapRegs f).regs = f s.regs := rfl
@[simp] theorem mapRegs_input (s : State) (f : Regs s.lenw → Regs s.lenw) :
    (s.mapRegs f).input = s.input := rfl
@[simp] theorem mapRegs_lenw (s : State) (f : Regs s.lenw → Regs s.lenw) : (s.mapRegs f).lenw = s.lenw := rfl
@[simp] theorem resetAt_lenw (w : Nat) : (State.resetAt w).lenw = w := rfl
@[simp] theorem resetAt_regs (w : Nat) : (State.resetAt w).regs = Regs.afterReset := rfl
@[simp] theorem resetAt_input (w : Nat) : (State.resetAt w).input = [] := rfl
theorem reset_eq : State.reset = State.resetAt Config.defaultLenw := rfl
@[simp] theorem outcome_ok (s : State) (r : Regs s.lenw) : s.outcome (.ok r) = .next (s.withRegs r) := rfl
@[simp] theorem outcome_error (s : State) (f : Fault) : s.outcome (.error f) = .fault f := rfl

/-! ## A violation -/

@[simp] theorem violation_fsm {w : Nat} (r : Regs w) : r.violation.fsm = r.fsm := rfl
@[simp] theorem violation_ss {w : Nat} (r : Regs w) : r.violation.ss = r.ss := rfl
@[simp] theorem violation_pos {w : Nat} (r : Regs w) : r.violation.pos = r.pos := rfl
@[simp] theorem violation_la {w : Nat} (r : Regs w) : r.violation.la = r.la := rfl
@[simp] theorem violation_ph {w : Nat} (r : Regs w) : r.violation.ph = r.ph := rfl
@[simp] theorem violation_mode {w : Nat} (r : Regs w) : r.violation.mode = r.mode := rfl
@[simp] theorem violation_fin {w : Nat} (r : Regs w) : r.violation.fin = r.fin := rfl
@[simp] theorem violation_rDone {w : Nat} (r : Regs w) : r.violation.rDone = r.rDone := rfl
@[simp] theorem violation_rErr {w : Nat} (r : Regs w) : r.violation.rErr = r.rErr := rfl
@[simp] theorem violation_rLen {w : Nat} (r : Regs w) : r.violation.rLen = r.rLen := rfl
@[simp] theorem violation_perr {w : Nat} (r : Regs w) : r.violation.perr = true := rfl
@[simp] theorem violation_nlk {w : Nat} (r : Regs w) : r.violation.nlk = r.nlk := rfl

/-! ## An opened transaction -/

@[simp] theorem opened_fsm {w : Nat} (m s0 : Code) (f : Bool) (r : Regs w) : (r.opened m s0 f).fsm = s0 := rfl
@[simp] theorem opened_ss {w : Nat} (m s0 : Code) (f : Bool) (r : Regs w) : (r.opened m s0 f).ss = r.ss := rfl
@[simp] theorem opened_pos {w : Nat} (m s0 : Code) (f : Bool) (r : Regs w) : (r.opened m s0 f).pos = 0 := rfl
@[simp] theorem opened_la {w : Nat} (m s0 : Code) (f : Bool) (r : Regs w) : (r.opened m s0 f).la = 0 := rfl
@[simp] theorem opened_ph {w : Nat} (m s0 : Code) (f : Bool) (r : Regs w) : (r.opened m s0 f).ph = .run := rfl
@[simp] theorem opened_mode {w : Nat} (m s0 : Code) (f : Bool) (r : Regs w) : (r.opened m s0 f).mode = m := rfl
@[simp] theorem opened_fin {w : Nat} (m s0 : Code) (f : Bool) (r : Regs w) : (r.opened m s0 f).fin = f := rfl
@[simp] theorem opened_rDone {w : Nat} (m s0 : Code) (f : Bool) (r : Regs w) : (r.opened m s0 f).rDone = false := rfl
@[simp] theorem opened_rErr {w : Nat} (m s0 : Code) (f : Bool) (r : Regs w) : (r.opened m s0 f).rErr = r.rErr := rfl
@[simp] theorem opened_rLen {w : Nat} (m s0 : Code) (f : Bool) (r : Regs w) : (r.opened m s0 f).rLen = r.rLen := rfl
@[simp] theorem opened_perr {w : Nat} (m s0 : Code) (f : Bool) (r : Regs w) : (r.opened m s0 f).perr = r.perr := rfl
@[simp] theorem opened_nlk {w : Nat} (m s0 : Code) (f : Bool) (r : Regs w) : (r.opened m s0 f).nlk = 0 := rfl

/-! ## A consumed byte -/

@[simp] theorem consumed_fsm {w : Nat} (s' : Code) (looked stop : Bool) (r : Regs w) : (r.consumed s' looked stop).fsm = s' := rfl
@[simp] theorem consumed_ss {w : Nat} (s' : Code) (looked stop : Bool) (r : Regs w) : (r.consumed s' looked stop).ss = r.ss := rfl
@[simp] theorem consumed_pos {w : Nat} (s' : Code) (looked stop : Bool) (r : Regs w) : (r.consumed s' looked stop).pos = r.pos + 1 := rfl
@[simp] theorem consumed_la {w : Nat} (s' : Code) (looked stop : Bool) (r : Regs w) : (r.consumed s' looked stop).la = (if s' = ACC then r.pos + 1 else r.la) := rfl
@[simp] theorem consumed_ph {w : Nat} (s' : Code) (looked stop : Bool) (r : Regs w) : (r.consumed s' looked stop).ph = (if stop then .stop else r.ph) := rfl
@[simp] theorem consumed_mode {w : Nat} (s' : Code) (looked stop : Bool) (r : Regs w) : (r.consumed s' looked stop).mode = r.mode := rfl
@[simp] theorem consumed_fin {w : Nat} (s' : Code) (looked stop : Bool) (r : Regs w) : (r.consumed s' looked stop).fin = r.fin := rfl
@[simp] theorem consumed_rDone {w : Nat} (s' : Code) (looked stop : Bool) (r : Regs w) : (r.consumed s' looked stop).rDone = r.rDone := rfl
@[simp] theorem consumed_rErr {w : Nat} (s' : Code) (looked stop : Bool) (r : Regs w) : (r.consumed s' looked stop).rErr = r.rErr := rfl
@[simp] theorem consumed_rLen {w : Nat} (s' : Code) (looked stop : Bool) (r : Regs w) : (r.consumed s' looked stop).rLen = r.rLen := rfl
@[simp] theorem consumed_perr {w : Nat} (s' : Code) (looked stop : Bool) (r : Regs w) : (r.consumed s' looked stop).perr = r.perr := rfl
@[simp] theorem consumed_nlk {w : Nat} (s' : Code) (looked stop : Bool) (r : Regs w) : (r.consumed s' looked stop).nlk = (if looked then r.nlk + 1 else r.nlk) := rfl

/-! ## A closed transaction -/

@[simp] theorem closed_fsm {w : Nat} (res : EndResult w) (r : Regs w) : (r.closed res).fsm = r.fsm := rfl
@[simp] theorem closed_ss {w : Nat} (res : EndResult w) (r : Regs w) : (r.closed res).ss = res.ss := rfl
@[simp] theorem closed_pos {w : Nat} (res : EndResult w) (r : Regs w) : (r.closed res).pos = r.pos := rfl
@[simp] theorem closed_la {w : Nat} (res : EndResult w) (r : Regs w) : (r.closed res).la = r.la := rfl
@[simp] theorem closed_ph {w : Nat} (res : EndResult w) (r : Regs w) : (r.closed res).ph = .idle := rfl
@[simp] theorem closed_mode {w : Nat} (res : EndResult w) (r : Regs w) : (r.closed res).mode = r.mode := rfl
@[simp] theorem closed_fin {w : Nat} (res : EndResult w) (r : Regs w) : (r.closed res).fin = r.fin := rfl
@[simp] theorem closed_rDone {w : Nat} (res : EndResult w) (r : Regs w) : (r.closed res).rDone = true := rfl
@[simp] theorem closed_rErr {w : Nat} (res : EndResult w) (r : Regs w) : (r.closed res).rErr = res.err := rfl
@[simp] theorem closed_rLen {w : Nat} (res : EndResult w) (r : Regs w) : (r.closed res).rLen = res.len := rfl
@[simp] theorem closed_perr {w : Nat} (res : EndResult w) (r : Regs w) : (r.closed res).perr = r.perr := rfl
@[simp] theorem closed_nlk {w : Nat} (res : EndResult w) (r : Regs w) : (r.closed res).nlk = r.nlk := rfl

/-! ## Reset -/

@[simp] theorem applyReset_fsm {w : Nat} (r : Regs w) : r.applyReset.fsm = ACC := rfl
@[simp] theorem applyReset_ss {w : Nat} (r : Regs w) : r.applyReset.ss = ACC := rfl
@[simp] theorem applyReset_pos {w : Nat} (r : Regs w) : r.applyReset.pos = 0 := rfl
@[simp] theorem applyReset_la {w : Nat} (r : Regs w) : r.applyReset.la = 0 := rfl
@[simp] theorem applyReset_ph {w : Nat} (r : Regs w) : r.applyReset.ph = .idle := rfl
@[simp] theorem applyReset_mode {w : Nat} (r : Regs w) : r.applyReset.mode = 0 := rfl
@[simp] theorem applyReset_fin {w : Nat} (r : Regs w) : r.applyReset.fin = false := rfl
@[simp] theorem applyReset_rDone {w : Nat} (r : Regs w) : r.applyReset.rDone = false := rfl
@[simp] theorem applyReset_rErr {w : Nat} (r : Regs w) : r.applyReset.rErr = false := rfl
@[simp] theorem applyReset_rLen {w : Nat} (r : Regs w) : r.applyReset.rLen = 0 := rfl
@[simp] theorem applyReset_perr {w : Nat} (r : Regs w) : r.applyReset.perr = false := rfl
@[simp] theorem applyReset_nlk {w : Nat} (r : Regs w) : r.applyReset.nlk = 0 := rfl

/-- `SINIT` in `IDLE` writes `SS` alone. -/
@[simp] theorem sinit_of_idle {w : Nat} (r : Regs w) (h : r.ph = .idle) : r.sinit = { r with ss := ACC } := by
  simp [Regs.sinit, h]

end Sys2Proof.Machine
end

