-- ==== Sys2Proof/Laws/Ops.lean ====
section
/-! SUPPORT. What each shared operation can do, said once: later proofs cite these and do not unfold the operations. -/

namespace Sys2Proof.Machine

/-! ## The begin template and `SINIT` -/

theorem beginTx_of_idle {w : Nat} (m s0 : Code) (f : Bool) (r : Regs w) (h : r.ph = .idle) :
    r.beginTx m s0 f = r.opened m s0 f := by simp [Regs.beginTx, h]

theorem beginTx_of_open {w : Nat} (m s0 : Code) (f : Bool) (r : Regs w) (h : r.ph ≠ .idle) :
    r.beginTx m s0 f = r.violation := by simp [Regs.beginTx, h]

theorem beginTx_cases {w : Nat} (m s0 : Code) (f : Bool) (r : Regs w) :
    (r.ph = .idle ∧ r.beginTx m s0 f = r.opened m s0 f) ∨ (r.ph ≠ .idle ∧ r.beginTx m s0 f = r.violation) := by
  by_cases h : r.ph = .idle
  · exact .inl ⟨h, beginTx_of_idle m s0 f r h⟩
  · exact .inr ⟨h, beginTx_of_open m s0 f r h⟩

theorem sinit_cases {w : Nat} (r : Regs w) :
    (r.ph = .idle ∧ r.sinit = { r with ss := ACC }) ∨ (r.ph ≠ .idle ∧ r.sinit = r.violation) := by
  by_cases h : r.ph = .idle
  · exact .inl ⟨h, sinit_of_idle r h⟩
  · exact .inr ⟨h, by simp [Regs.sinit, h]⟩

/-! ## The stop condition, the fast path, the successor -/

/-- The stop condition is defined exactly for the begin opcodes. -/
theorem stops_isSome (m s' : Code) : (stops m s').isSome = isBegin m := by
  revert m s'; decide

theorem fastTaken_false {w : Nat} (b : Byte) (r : Regs w) : fastTaken false b r = false := rfl

theorem successor_false {w : Nat} (row : Row) (b : Byte) (r : Regs w) :
    r.successor false row b = unpack row r.fsm := rfl

/-! ## `BYTE` -/

theorem byteBeat_of_idle {w : Nat} (fast : Bool) (row : Row) (b : Byte) (r : Regs w) (h : r.ph = .idle) :
    r.byteBeat fast row b = .ok r.violation := by simp [Regs.byteBeat, h]

theorem byteBeat_of_stop {w : Nat} (fast : Bool) (row : Row) (b : Byte) (r : Regs w) (h : r.ph = .stop) :
    r.byteBeat fast row b = .ok r := by simp [Regs.byteBeat, h]

theorem byteBeat_of_run {w : Nat} (fast : Bool) (row : Row) (b : Byte) (r : Regs w) (h : r.ph = .run) (stop : Bool)
    (hs : stops r.mode (r.successor fast row b) = some stop) :
    r.byteBeat fast row b = .ok (r.consumed (r.successor fast row b) (!fastTaken fast b r) stop) := by
  simp [Regs.byteBeat, h, hs]

/-- Everything a `BYTE` beat can answer. -/
theorem byteBeat_cases {w : Nat} {fast : Bool} {row : Row} {b : Byte} {r t : Regs w}
    (h : r.byteBeat fast row b = .ok t) :
    (r.ph = .idle ∧ t = r.violation) ∨ (r.ph = .stop ∧ t = r) ∨
    (r.ph = .run ∧ ∃ stop, stops r.mode (r.successor fast row b) = some stop ∧
      t = r.consumed (r.successor fast row b) (!fastTaken fast b r) stop) := by
  cases hp : r.ph with
  | idle => rw [byteBeat_of_idle _ _ _ _ hp] at h; exact .inl ⟨rfl, (Except.ok.inj h).symm⟩
  | stop => rw [byteBeat_of_stop _ _ _ _ hp] at h; exact .inr (.inl ⟨rfl, (Except.ok.inj h).symm⟩)
  | run =>
    cases hs : stops r.mode (r.successor fast row b) with
    | none => simp [Regs.byteBeat, hp, hs] at h
    | some stop =>
      rw [byteBeat_of_run _ _ _ _ hp stop hs] at h
      exact .inr (.inr ⟨rfl, stop, rfl, (Except.ok.inj h).symm⟩)

/-! ## `END` -/

theorem endBeat_of_idle {w : Nat} (r : Regs w) (h : r.ph = .idle) : r.endBeat = .ok r.violation := by
  simp [Regs.endBeat, h]

theorem endBeat_of_open {w : Nat} (r : Regs w) (h : r.ph ≠ .idle) (res : EndResult w) (hr : endResult r = some res) :
    r.endBeat = .ok (r.closed res) := by simp [Regs.endBeat, h, hr]

/-- Everything `END` can answer. -/
theorem endBeat_cases {w : Nat} {r t : Regs w} (h : r.endBeat = .ok t) :
    (r.ph = .idle ∧ t = r.violation) ∨ (r.ph ≠ .idle ∧ ∃ res, endResult r = some res ∧ t = r.closed res) := by
  by_cases hp : r.ph = .idle
  · rw [endBeat_of_idle r hp] at h; exact .inl ⟨hp, (Except.ok.inj h).symm⟩
  · cases hr : endResult r with
    | none => simp [Regs.endBeat, hp, hr] at h
    | some res => rw [endBeat_of_open r hp res hr] at h; exact .inr ⟨hp, res, rfl, (Except.ok.inj h).symm⟩

/-- `END` has a result exactly for the begin opcodes. -/
theorem endResult_isSome {w : Nat} (r : Regs w) : (endResult r).isSome = isBegin r.mode := by
  unfold endResult isBegin
  repeat' split
  all_goals (simp_all <;> tauto)

/-- Only the `SCHK` arm of `END` changes the Stream State. -/
theorem endResult_ss {w : Nat} {r : Regs w} {res : EndResult w} (h : endResult r = some res) (hm : r.mode ≠ opSCHK) :
    res.ss = r.ss := by
  unfold endResult at h
  split at h
  · cases h; rfl
  · split at h
    · cases h; unfold resultChk; split <;> rfl
    · split at h
      · cases h; rfl
      · cases h

/-! ## An outcome that is a next state -/

theorem outcome_next {s t : State} {o : Except Fault (Regs s.lenw)} (h : s.outcome o = .next t) :
    ∃ r, o = .ok r ∧ t = s.withRegs r := by
  cases o with
  | ok r => exact ⟨r, rfl, by simpa using h.symm⟩
  | error f => simp at h

/-! ## Runs of the FSM -/

@[simp] theorem runDelta_nil (s : Code) : runDelta s [] = s := rfl

@[simp] theorem runDelta_cons (s : Code) (b : Byte) (bs : List Byte) :
    runDelta s (b :: bs) = runDelta (delta s b) bs := rfl

theorem runDelta_append (s : Code) (xs ys : List Byte) : runDelta s (xs ++ ys) = runDelta (runDelta s xs) ys := by
  induction xs generalizing s with
  | nil => rfl
  | cons x xs ih => simp [ih]

@[simp] theorem stateAt_zero (s0 : Code) (b : List Byte) : stateAt s0 b 0 = s0 := rfl

theorem stateAt_length (s0 : Code) (b : List Byte) : stateAt s0 b b.length = runDelta s0 b := by simp [stateAt]

theorem stateAt_succ (s0 : Code) (b : List Byte) (k : Nat) (h : k < b.length) :
    stateAt s0 b (k + 1) = delta (stateAt s0 b k) b[k] := by
  simp only [stateAt, List.take_succ_eq_append_getElem h, runDelta_append, runDelta_cons, runDelta_nil]

end Sys2Proof.Machine
end

