-- ==== Sys2Proof/Laws/PerInstr.lean ====
section
/-! SUPPORT. Statements made of every instruction, one lemma per constructor. -/

namespace Sys2Proof.Laws.WiresCarryOpcode

/-- The opcode of an instruction's beat (R61, R64); a data byte of any class travels under `BYTE`, 0x6 (R122). -/
def opcodeOf : Instr → Code
  | .nop _ => 0x0
  | .wf _ => 0x1
  | .chk _ => 0x2
  | .msl _ => 0x3
  | .sinit _ => 0x4
  | .schk _ _ => 0x5
  | .byte _ => 0x6
  | .endTx _ => 0x7
  | .reserved8 _ => 0x8
  | .wfct _ => 0x9
  | .chkct _ => 0xA
  | .reservedB _ => 0xB
  | .reservedC _ => 0xC
  | .reservedD _ => 0xD
  | .reservedE _ => 0xE
  | .reservedF _ => 0xF
  | _ => 0x6

/-- The wires that carry an instruction hold its opcode in bits 11 to 8. -/
def Statement (i : Instr) : Prop := opField (encode i).wires = opcodeOf i

theorem opField_append (op : Code) (d : Byte) : opField (op ++ d) = op := by
  revert op d; decide

theorem nop (d : Byte) : Statement (.nop d) := opField_append _ _
theorem wf (d : Byte) : Statement (.wf d) := opField_append _ _
theorem chk (d : Byte) : Statement (.chk d) := opField_append _ _
theorem msl (d : Byte) : Statement (.msl d) := opField_append _ _
theorem sinit (d : Byte) : Statement (.sinit d) := opField_append _ _
theorem schk (g : BitVec 7) (f : Bool) : Statement (.schk g f) := opField_append _ _
theorem byte (b : Byte) : Statement (.byte b) := opField_append _ _
theorem endTx (d : Byte) : Statement (.endTx d) := opField_append _ _
theorem wfct (d : Byte) : Statement (.wfct d) := opField_append _ _
theorem chkct (d : Byte) : Statement (.chkct d) := opField_append _ _
theorem reserved8 (d : Byte) : Statement (.reserved8 d) := opField_append _ _
theorem reservedB (d : Byte) : Statement (.reservedB d) := opField_append _ _
theorem reservedC (d : Byte) : Statement (.reservedC d) := opField_append _ _
theorem reservedD (d : Byte) : Statement (.reservedD d) := opField_append _ _
theorem reservedE (d : Byte) : Statement (.reservedE d) := opField_append _ _
theorem reservedF (d : Byte) : Statement (.reservedF d) := opField_append _ _
theorem ascii (b : Byte) : Statement (.ascii b) := opField_append _ _
theorem contA (b : Byte) : Statement (.contA b) := opField_append _ _
theorem contB (b : Byte) : Statement (.contB b) := opField_append _ _
theorem contC (b : Byte) : Statement (.contC b) := opField_append _ _
theorem badC0 (b : Byte) : Statement (.badC0 b) := opField_append _ _
theorem lead2 (b : Byte) : Statement (.lead2 b) := opField_append _ _
theorem lead3E0 : Statement .lead3E0 := opField_append _ _
theorem lead3 (b : Byte) : Statement (.lead3 b) := opField_append _ _
theorem lead3ED : Statement .lead3ED := opField_append _ _
theorem lead4F0 : Statement .lead4F0 := opField_append _ _
theorem lead4 (b : Byte) : Statement (.lead4 b) := opField_append _ _
theorem lead4F4 : Statement .lead4F4 := opField_append _ _
theorem badF5 (b : Byte) : Statement (.badF5 b) := opField_append _ _

end Sys2Proof.Laws.WiresCarryOpcode
end

