-- ==== Sys2Proof/Laws/Step.lean ====
section
/-! SUPPORT. What an instruction and a step can do, said once: every whole-machine rule is a case analysis over these. -/

namespace Sys2Proof.Machine

/-- The ROM row a data instruction meets: the ROM's own for `BYTE`, the class's for a byte class. -/
def dataRow : Instr → Row
  | .byte b => romRead b
  | .ascii _ => rowAscii
  | .contA _ => rowContA
  | .contB _ => rowContB
  | .contC _ => rowContC
  | .lead2 _ => rowLead2
  | .lead3E0 => rowLead3E0
  | .lead3 _ => rowLead3
  | .lead3ED => rowLead3ED
  | .lead4F0 => rowLead4F0
  | .lead4 _ => rowLead4
  | .lead4F4 => rowLead4F4
  | .badC0 _ => rowBadC0
  | _ => rowBadF5

/-- A data instruction is a `BYTE` beat with its own row. -/
theorem exec_data (i : Instr) (s : State) (h : isData i = true) :
    ∃ b, exec i s = s.outcome (s.regs.byteBeat Config.fastpath (dataRow i) b) := by
  cases i <;> first | (simp [isData] at h; done) | exact ⟨_, rfl⟩

/-- The opcode, start state and flag of a begin command (R121), where `ss` is the Stream State. -/
def beginArgs (ss : Code) : Instr → Code × Code × Bool
  | .wf _ => (opWF, ACC, false)
  | .chk _ => (opCHK, ACC, false)
  | .msl _ => (opMSL, ACC, false)
  | .schk _ f => (opSCHK, ss, f)
  | .wfct _ => (opWFCT, ACC, false)
  | _ => (opCHKCT, ACC, false)

theorem exec_begin (i : Instr) (s : State) (h : begins i = true) :
    exec i s = .next (s.withRegs (s.regs.beginTx (beginArgs s.regs.ss i).1 (beginArgs s.regs.ss i).2.1
      (beginArgs s.regs.ss i).2.2)) := by
  cases i <;> first | (simp [begins] at h; done) | rfl

theorem isBegin_beginArgs (ss : Code) (i : Instr) : isBegin (beginArgs ss i).1 = true := by
  cases i <;> rfl

/-- Everything an instruction can do to the registers, at any width: a whole-machine rule is a case analysis over this, with
no machine state in it. -/
def Regs.Steps {w : Nat} (i : Instr) (r r' : Regs w) : Prop :=
  (isViolation i r.ph = true ∧ r' = r.violation) ∨
  (isViolation i r.ph = false ∧
    ((begins i = true ∧ r.ph = .idle ∧
        r' = r.opened (beginArgs r.ss i).1 (beginArgs r.ss i).2.1 (beginArgs r.ss i).2.2) ∨
     ((∃ d, i = .sinit d) ∧ r.ph = .idle ∧ r' = { r with ss := ACC }) ∨
     (isData i = true ∧ r.ph = .run ∧ ∃ stop, stops r.mode (unpack (dataRow i) r.fsm) = some stop ∧
        r' = r.consumed (unpack (dataRow i) r.fsm) true stop) ∨
     (isData i = true ∧ r.ph = .stop ∧ r' = r) ∨
     ((∃ d, i = .endTx d) ∧ r.ph ≠ .idle ∧ ∃ res, endResult r = some res ∧ r' = r.closed res) ∨
     ((∃ d, i = .nop d) ∧ r' = r)))

/-- Everything an instruction can do: it writes the registers, and nothing else. -/
theorem exec_cases {i : Instr} {s t : State} (h : exec i s = .next t) :
    ∃ r : Regs s.lenw, t = s.withRegs r ∧ s.regs.Steps i r := by
  by_cases hd : isData i = true
  · obtain ⟨b, hb⟩ := exec_data i s hd
    rw [hb] at h
    obtain ⟨r, hr, rfl⟩ := outcome_next h
    refine ⟨r, rfl, ?_⟩
    have hv : ∀ p, isViolation i p = decide (p = .idle) := by
      intro p; cases i <;> first | (simp [isData] at hd; done) | rfl
    rcases byteBeat_cases hr with ⟨hp, rfl⟩ | ⟨hp, rfl⟩ | ⟨hp, stop, hs, rfl⟩
    · exact .inl ⟨by simp [hv, hp], rfl⟩
    · exact .inr ⟨by simp [hv, hp], .inr (.inr (.inr (.inl ⟨hd, hp, rfl⟩)))⟩
    · exact .inr ⟨by simp [hv, hp], .inr (.inr (.inl ⟨hd, hp, stop, hs, rfl⟩))⟩
  by_cases hb : begins i = true
  · rw [exec_begin i s hb] at h
    cases h
    refine ⟨_, rfl, ?_⟩
    have hv : ∀ p, isViolation i p = decide (p ≠ .idle) := by
      intro p; cases i <;> first | (simp [begins] at hb; done) | rfl
    rcases beginTx_cases (beginArgs s.regs.ss i).1 (beginArgs s.regs.ss i).2.1 (beginArgs s.regs.ss i).2.2 s.regs with
      ⟨hp, e⟩ | ⟨hp, e⟩
    · exact .inr ⟨by simp [hv, hp], .inl ⟨hb, hp, e⟩⟩
    · exact .inl ⟨by simp [hv, hp], e⟩
  cases i with
  | nop d => cases h; exact ⟨s.regs, rfl, .inr ⟨rfl, .inr (.inr (.inr (.inr (.inr ⟨⟨d, rfl⟩, rfl⟩))))⟩⟩
  | sinit d =>
    cases (show Host.Outcome.next (s.withRegs s.regs.sinit) = .next t from h)
    refine ⟨_, rfl, ?_⟩
    rcases sinit_cases s.regs with ⟨hp, e⟩ | ⟨hp, e⟩
    · exact .inr ⟨by simp [isViolation, hp], .inr (.inl ⟨⟨d, rfl⟩, hp, e⟩)⟩
    · exact .inl ⟨by simp [isViolation, hp], e⟩
  | endTx d =>
    obtain ⟨r, hr, rfl⟩ := outcome_next (o := s.regs.endBeat) h
    refine ⟨r, rfl, ?_⟩
    rcases endBeat_cases hr with ⟨hp, rfl⟩ | ⟨hp, res, e, rfl⟩
    · exact .inl ⟨by simp [isViolation, hp], rfl⟩
    · exact .inr ⟨by simp [isViolation, hp], .inr (.inr (.inr (.inr (.inl ⟨⟨d, rfl⟩, hp, res, e, rfl⟩))))⟩
  | reserved8 d => cases h; exact ⟨_, rfl, .inl ⟨rfl, rfl⟩⟩
  | reservedB d => cases h; exact ⟨_, rfl, .inl ⟨rfl, rfl⟩⟩
  | reservedC d => cases h; exact ⟨_, rfl, .inl ⟨rfl, rfl⟩⟩
  | reservedD d => cases h; exact ⟨_, rfl, .inl ⟨rfl, rfl⟩⟩
  | reservedE d => cases h; exact ⟨_, rfl, .inl ⟨rfl, rfl⟩⟩
  | reservedF d => cases h; exact ⟨_, rfl, .inl ⟨rfl, rfl⟩⟩
  | _ => first | exact absurd rfl hd | exact absurd rfl hb

/-- Everything a step can do. -/
theorem step_cases {s t : State} (h : step s = .next t) :
    (s.input = [] ∧ t = s) ∨
    ∃ c rest, s.input = c :: rest ∧
      ((c.rst = true ∧ t = { lenw := s.lenw, regs := Regs.afterReset, input := rest }) ∨
       (c.rst = false ∧ c.valid = false ∧ t = { s with input := rest }) ∨
       (c.rst = false ∧ c.valid = true ∧ exec (decodeBeat c.beat) { s with input := rest } = .next t)) := by
  unfold step at h
  cases hi : s.input with
  | nil => rw [hi] at h; exact .inl ⟨rfl, by simpa using h.symm⟩
  | cons c rest =>
    rw [hi] at h
    refine .inr ⟨c, rest, rfl, ?_⟩
    cases hr : c.rst with
    | true =>
      simp only [cycle, hr, if_true] at h
      exact .inl ⟨rfl, (Host.Outcome.next.inj h).symm⟩
    | false =>
      cases hv : c.valid with
      | false =>
        simp only [cycle, hr, hv, Bool.false_eq_true, if_false] at h
        exact .inr (.inl ⟨rfl, rfl, (Host.Outcome.next.inj h).symm⟩)
      | true =>
        simp only [cycle, hr, hv, Bool.false_eq_true, if_false, if_true] at h
        exact .inr (.inr ⟨rfl, rfl, h⟩)

end Sys2Proof.Machine
end

