-- ==== Sys2Proof/Laws/Run.lean ====
section
/-! SUPPORT. Runs of the machine: one step at a time, two runs joined, and the cycle that presents a beat. -/

namespace Sys2Proof.Machine

theorem run_zero (s : State) : Sys2Proof.core.run 0 s = .next s := rfl

theorem run_succ_of_next {s t : State} (n : Nat) (h : step s = .next t) :
    Sys2Proof.core.run (n + 1) s = Sys2Proof.core.run n t := by
  have h' : Sys2Proof.core.step s = .next t := h
  simp only [Host.Core.run, h']

/-- A run of `m + n` steps is a run of `n` from where `m` steps lead. -/
theorem run_add {s t : State} {m n : Nat} (h : Sys2Proof.core.run m s = .next t) :
    Sys2Proof.core.run (m + n) s = Sys2Proof.core.run n t := by
  induction m generalizing s with
  | zero => cases (show Host.Outcome.next s = .next t from h); rw [Nat.zero_add]
  | succ m ih =>
    cases hs : step s with
    | next u =>
      rw [run_succ_of_next m hs] at h
      rw [Nat.succ_add, run_succ_of_next _ hs, ih h]
    | fault f =>
      have h' : Sys2Proof.core.step s = .fault f := hs
      simp only [Host.Core.run, h'] at h
      cases h
    | refused r =>
      have h' : Sys2Proof.core.step s = .refused r := hs
      simp only [Host.Core.run, h'] at h
      cases h

/-- A presented beat is accepted. -/
theorem step_present {s : State} {x : Beat} {rest : List PortIn} (h : s.input = PortIn.present x :: rest) :
    step s = exec (decodeBeat x) { s with input := rest } := by
  simp [step, h, cycle, PortIn.present]

end Sys2Proof.Machine
end

