-- ==== Sys2Proof/Machine/Notation.lean ====
section
/-! DEFINITION. The textual notation of R75: mnemonic and operand, and the word in three hex digits. -/

namespace Sys2Proof.Machine

/-- A hex digit, in capitals as the spec writes it. -/
def hexDigit (n : Code) : Char :=
  if n.toNat < 10 then Char.ofNat (48 + n.toNat) else Char.ofNat (55 + n.toNat)

/-- A byte as two hex digits. -/
def hexByte (b : Byte) : List Char := [hexDigit (b.extractLsb' 4 4), hexDigit (b.extractLsb' 0 4)]

/-- The beat's word in three hex digits, `op` first. -/
def wordText (x : Beat) : List Char := hexDigit (opField x.wires) :: hexByte (datField x.wires)

/-- The beat in the notation of R75; a data byte is written as the `BYTE` beat that carries it, and the reserved opcodes,
which R75 does not name, by their mnemonic. -/
def beatText (i : Instr) : List Char :=
  match i with
  | .byte b => "BYTE 0x".toList ++ hexByte b
  | .schk _ final => "SCHK final=".toList ++ [if final then '1' else '0']
  | .ascii b => "BYTE 0x".toList ++ hexByte b
  | .contA b => "BYTE 0x".toList ++ hexByte b
  | .contB b => "BYTE 0x".toList ++ hexByte b
  | .contC b => "BYTE 0x".toList ++ hexByte b
  | .badC0 b => "BYTE 0x".toList ++ hexByte b
  | .lead2 b => "BYTE 0x".toList ++ hexByte b
  | .lead3E0 => "BYTE 0x".toList ++ hexByte 0xE0
  | .lead3 b => "BYTE 0x".toList ++ hexByte b
  | .lead3ED => "BYTE 0x".toList ++ hexByte 0xED
  | .lead4F0 => "BYTE 0x".toList ++ hexByte 0xF0
  | .lead4 b => "BYTE 0x".toList ++ hexByte b
  | .lead4F4 => "BYTE 0x".toList ++ hexByte 0xF4
  | .badF5 b => "BYTE 0x".toList ++ hexByte b
  | .nop _ => i.mnemonic.toList
  | .wf _ => i.mnemonic.toList
  | .chk _ => i.mnemonic.toList
  | .msl _ => i.mnemonic.toList
  | .sinit _ => i.mnemonic.toList
  | .endTx _ => i.mnemonic.toList
  | .wfct _ => i.mnemonic.toList
  | .chkct _ => i.mnemonic.toList
  | .reserved8 _ => i.mnemonic.toList
  | .reservedB _ => i.mnemonic.toList
  | .reservedC _ => i.mnemonic.toList
  | .reservedD _ => i.mnemonic.toList
  | .reservedE _ => i.mnemonic.toList
  | .reservedF _ => i.mnemonic.toList

end Sys2Proof.Machine
end

