-- ==== Sys2Proof/Tests/Slice0.lean ====
section
/-! SUPPORT. The model's own tests: the well-formedness smoke test, a word written out from the spec's encoding for every
constructor, one-step tests with values from the rules' own examples and from spec/95_test_vectors.md, and for every
obligation with hypotheses a concrete case that meets them. -/

namespace Sys2Proof.Tests

open Sys2Proof.Machine

/-! ## Helpers -/

/-- The state an outcome leaves, if it is a next state. -/
def stateAfter : Host.Outcome State Fault Refusal → Option State
  | .next t => some t
  | .fault _ => none
  | .refused _ => none

/-- A machine in a phase and mode, with `S`, `POS` and `LA`; every other register as after reset. -/
def placed (ph : Phase) (mode fsm : Code) (pos la : Nat) : State :=
  { State.reset with
    regs :=
      { Regs.afterReset with
        ph := ph, mode := mode, fsm := fsm, pos := BitVec.ofNat 32 pos, la := BitVec.ofNat 32 la, nlk := pos } }

/-- `S`, `POS`, `LA`, `PH` after an instruction. -/
def scanAfter (i : Instr) (s : State) : Option (Code × Nat × Nat × Phase) :=
  (stateAfter (exec i s)).map fun t => (t.regs.fsm, t.regs.pos.toNat, t.regs.la.toNat, t.regs.ph)

/-- `R_DONE`, `R_ERR`, `R_LEN`, `SS`, `PH` after an instruction. -/
def resultAfter (i : Instr) (s : State) : Option (Bool × Bool × Nat × Code × Phase) :=
  (stateAfter (exec i s)).map fun t => (t.regs.rDone, t.regs.rErr, t.regs.rLen.toNat, t.regs.ss, t.regs.ph)

/-! ## Well-formedness: an ill-formed term for each check, on either side of the class's range (R73) -/

theorem test_wellFormed_ascii : (Instr.ascii 0x80).wellFormed = false ∧ (Instr.ascii 0x7F).wellFormed = true := by decide
theorem test_wellFormed_contA : (Instr.contA 0x7F).wellFormed = false ∧ (Instr.contA 0x90).wellFormed = false := by decide
theorem test_wellFormed_contB : (Instr.contB 0x8F).wellFormed = false ∧ (Instr.contB 0xA0).wellFormed = false := by decide
theorem test_wellFormed_contC : (Instr.contC 0x9F).wellFormed = false ∧ (Instr.contC 0xC0).wellFormed = false := by decide
theorem test_wellFormed_badC0 : (Instr.badC0 0xBF).wellFormed = false ∧ (Instr.badC0 0xC2).wellFormed = false := by decide
theorem test_wellFormed_lead2 : (Instr.lead2 0xC1).wellFormed = false ∧ (Instr.lead2 0xE0).wellFormed = false := by decide
theorem test_wellFormed_lead3 : (Instr.lead3 0xE0).wellFormed = false ∧ (Instr.lead3 0xED).wellFormed = false ∧
    (Instr.lead3 0xF0).wellFormed = false := by decide
theorem test_wellFormed_lead4 : (Instr.lead4 0xF0).wellFormed = false ∧ (Instr.lead4 0xF4).wellFormed = false := by decide
theorem test_wellFormed_badF5 : (Instr.badF5 0xF4).wellFormed = false ∧ (Instr.badF5 0xFF).wellFormed = true := by decide

/-! ## Decoding: words written out from R60, R61, R64 (`op` in bits 11 to 8) and R73 -/

theorem test_decode_nop : decodeBeat (.b12 0b000000000000) = .nop 0 := by decide
theorem test_decode_wf : decodeBeat (.b12 0b000100000000) = .wf 0 := by decide
theorem test_decode_chk : decodeBeat (.b12 0b001000000000) = .chk 0 := by decide
theorem test_decode_msl : decodeBeat (.b12 0b001100000000) = .msl 0 := by decide
theorem test_decode_sinit : decodeBeat (.b12 0b010000000000) = .sinit 0 := by decide
theorem test_decode_schk_open : decodeBeat (.b12 0b010111111110) = .schk 0b1111111 false := by decide
theorem test_decode_schk_final : decodeBeat (.b12 0b010100000001) = .schk 0 true := by decide
theorem test_decode_byte : decodeBeat (.b12 0b011011100010) = .byte 0xE2 := by decide
theorem test_decode_end : decodeBeat (.b12 0b011100000000) = .endTx 0 := by decide
theorem test_decode_wfct : decodeBeat (.b12 0b100100000000) = .wfct 0 := by decide
theorem test_decode_chkct : decodeBeat (.b12 0b101000000000) = .chkct 0 := by decide
theorem test_decode_reserved8 : decodeBeat (.b12 0b100000000000) = .reserved8 0 := by decide
theorem test_decode_reservedB : decodeBeat (.b12 0b101100000000) = .reservedB 0 := by decide
theorem test_decode_reservedC : decodeBeat (.b12 0b110000000000) = .reservedC 0 := by decide
theorem test_decode_reservedD : decodeBeat (.b12 0b110100000000) = .reservedD 0 := by decide
theorem test_decode_reservedE : decodeBeat (.b12 0b111000000000) = .reservedE 0 := by decide
theorem test_decode_reservedF : decodeBeat (.b12 0b111100010010) = .reservedF 0x12 := by decide
theorem test_decode_ascii : decodeBeat (.byte8 0b01111111) = .ascii 0x7F := by decide
theorem test_decode_contA : decodeBeat (.byte8 0b10000000) = .contA 0x80 := by decide
theorem test_decode_contB : decodeBeat (.byte8 0b10010000) = .contB 0x90 := by decide
theorem test_decode_contC : decodeBeat (.byte8 0b10111111) = .contC 0xBF := by decide
theorem test_decode_badC0 : decodeBeat (.byte8 0b11000001) = .badC0 0xC1 := by decide
theorem test_decode_lead2 : decodeBeat (.byte8 0b11000010) = .lead2 0xC2 := by decide
theorem test_decode_lead3E0 : decodeBeat (.byte8 0b11100000) = .lead3E0 := by decide
theorem test_decode_lead3_low : decodeBeat (.byte8 0b11101100) = .lead3 0xEC := by decide
theorem test_decode_lead3_high : decodeBeat (.byte8 0b11101110) = .lead3 0xEE := by decide
theorem test_decode_lead3ED : decodeBeat (.byte8 0b11101101) = .lead3ED := by decide
theorem test_decode_lead4F0 : decodeBeat (.byte8 0b11110000) = .lead4F0 := by decide
theorem test_decode_lead4 : decodeBeat (.byte8 0b11110011) = .lead4 0xF3 := by decide
theorem test_decode_lead4F4 : decodeBeat (.byte8 0b11110100) = .lead4F4 := by decide
theorem test_decode_badF5 : decodeBeat (.byte8 0b11110101) = .badF5 0xF5 := by decide

/-- The two formats of the table, and strings that are no word of it. -/
theorem test_decodeTableWord :
    decodeTableWord 16 0x6E2 = some (.byte 0xE2) ∧ decodeTableWord 8 0xED = some .lead3ED ∧
    decodeTableWord 16 0x1000 = none ∧ decodeTableWord 8 0x100 = none ∧ decodeTableWord 24 0x5 = none := by decide

theorem test_decode_rejects_by_name :
    decode [] = .error .empty ∧ decode [0x00, 0x10] = .error .wideBeat ∧ decode [0, 0, 0] = .error .tooLong := by
  exact ⟨rfl, rfl, rfl⟩

/-- R75: "`CHK` is `0x200`, `BYTE 0xE2` is `0x6E2`, `SCHK final=1` is `0x501`, `END` is `0x700`". -/
theorem test_notation :
    wordText (encode (.chk 0)) = ['2', '0', '0'] ∧ wordText (encode (.byte 0xE2)) = ['6', 'E', '2'] ∧
    wordText (encode (.schk 0 true)) = ['5', '0', '1'] ∧ wordText (encode (.endTx 0)) = ['7', '0', '0'] := by decide

/-! ## One step of each command -/

/-- P7, beat 9: `NOP` in `RUN` changes nothing. -/
theorem test_nop : scanAfter (.nop 0) (placed .run 0x2 ACC 1 1) = some (0x1, 1, 1, .run) := by decide

/-- R150: `begin(0x1, ACC, 0)`. -/
theorem test_wf : (stateAfter (exec (.wf 0) (placed .idle 0x2 ERR 5 3))).map
    (fun t => (t.regs.mode, t.regs.fsm, t.regs.pos.toNat, t.regs.la.toNat, t.regs.ph)) = some (0x1, 0x1, 0, 0, .run) := by decide

/-- P7, beat 4: a second `CHK` is ignored and sets `PERR`. -/
theorem test_chk_does_not_nest : (stateAfter (exec (.chk 0) (placed .run 0x2 T1 4 3))).map
    (fun t => (t.regs.mode, t.regs.fsm, t.regs.pos.toNat, t.regs.la.toNat, t.regs.ph, t.regs.perr)) = some (0x2, 0x2, 4, 3, .run, true) := by decide

/-- R151: `begin(0x2, ACC, 0)`. -/
theorem test_chk : (stateAfter (exec (.chk 0) (placed .idle 0 ACC 1 1))).map
    (fun t => (t.regs.mode, t.regs.fin, t.regs.ph)) = some (0x2, false, .run) := by decide

/-- R165: `begin(0x3, ACC, 0)`. -/
theorem test_msl : (stateAfter (exec (.msl 0) (placed .idle 0 ERR 1 0))).map
    (fun t => (t.regs.mode, t.regs.fsm, t.regs.pos.toNat)) = some (0x3, 0x1, 0) := by decide

/-- R180: "with `SS = T2` ..., `SINIT` gives `SS = ACC`"; `S` keeps its value (P6, beat 7). -/
theorem test_sinit : (stateAfter (exec (.sinit 0)
      { State.reset with regs := { Regs.afterReset with ss := T2, fsm := T1 } })).map
    (fun t => (t.regs.ss, t.regs.fsm, t.regs.perr)) = some (0x1, 0x2, false) := by decide

/-- P7, beat 5: `SINIT` in `RUN` is violation V5. -/
theorem test_sinit_in_run : (stateAfter (exec (.sinit 0)
      { State.reset with regs := { Regs.afterReset with ss := T2, ph := .run, mode := 0x2 } })).map
    (fun t => (t.regs.ss, t.regs.perr)) = some (0x3, true) := by decide

/-- P5, beat 5: `SCHK` starts in the Stream State, and only `dat[0]` is the flag (R63). -/
theorem test_schk : (stateAfter (exec (.schk 0x7F false)
      { State.reset with regs := { Regs.afterReset with ss := T2, fin := true, rDone := true } })).map
    (fun t => (t.regs.mode, t.regs.fsm, t.regs.ss, t.regs.fin, t.regs.rDone)) = some (0x5, 0x3, 0x3, false, false) := by decide

/-- R122: "with `MODE = CHK`, `S = T1`, `POS = 4`, `LA = 3`, the beat `BYTE 0xA9` gives `S = ACC`, `POS = 5`, `LA = 5`". -/
theorem test_byte_completes : scanAfter (.byte 0xA9) (placed .run 0x2 T1 4 3) = some (0x1, 5, 5, .run) := by decide

/-- R122: "the beat `BYTE 0x41` instead gives `S = ERR`, `POS = 5`, `LA = 3`, `PH = STOP`". -/
theorem test_byte_breaks : scanAfter (.byte 0x41) (placed .run 0x2 T1 4 3) = some (0x0, 5, 3, .stop) := by decide

/-- R128: "`END` gives `R_DONE = 1`, `R_ERR = 1`, `R_LEN = 3`, `PH = IDLE`". -/
theorem test_end_chk : resultAfter (.endTx 0) (placed .stop 0x2 ERR 5 3) = some (true, true, 3, 0x1, .idle) := by decide

/-- P5, beat 4: the pending chunk leaves its state in `SS`. -/
theorem test_end_schk : resultAfter (.endTx 0) (placed .run 0x5 T2 2 1) = some (true, false, 1, 0x3, .idle) := by decide

/-- R200: after `WFCT; BYTE 0xC0` the byte 0x80 gives `S = ERR`, `POS = 2`, `PH = RUN`. -/
theorem test_wfct_goes_on : scanAfter (.byte 0x80) (placed .run 0x9 ERR 1 0) = some (0x0, 2, 0, .run) := by decide

/-- R200: `begin(0x9, ACC, 0)`. -/
theorem test_wfct : (stateAfter (exec (.wfct 0) State.reset)).map (fun t => (t.regs.mode, t.regs.fsm, t.regs.ph))
    = some (0x9, 0x1, .run) := by decide

/-- R201: `begin(0xA, ACC, 0)`. -/
theorem test_chkct : (stateAfter (exec (.chkct 0) State.reset)).map (fun t => (t.regs.mode, t.regs.fsm, t.regs.ph))
    = some (0xA, 0x1, .run) := by decide

/-- R201: `CHKCT` of `E2 82 AC ED A0 80` "gives `R_ERR = 1`, `R_LEN = 3`, with `POS = 6` before `END`". -/
theorem test_end_chkct : resultAfter (.endTx 0) (placed .run 0xA ERR 6 3) = some (true, true, 3, 0x1, .idle) := by decide

/-- P7, beats 7 and 8: a reserved opcode sets `PERR` and leaves the open transaction alone. -/
theorem test_reserved :
    (stateAfter (exec (.reserved8 0) (placed .run 0x2 ACC 1 1))).map (fun t => (t.regs.fsm, t.regs.pos.toNat, t.regs.ph, t.regs.perr))
      = some (0x1, 1, .run, true) ∧
    (stateAfter (exec (.reservedF 0x12) (placed .run 0x2 ACC 1 1))).map (fun t => (t.regs.fsm, t.regs.pos.toNat, t.regs.ph, t.regs.perr))
      = some (0x1, 1, .run, true) := by decide

theorem test_reserved_in_idle :
    (stateAfter (exec (.reservedB 0) State.reset)).map (fun t => (t.regs.ph, t.regs.perr)) = some (.idle, true) ∧
    (stateAfter (exec (.reservedC 0) State.reset)).map (fun t => (t.regs.ph, t.regs.perr)) = some (.idle, true) ∧
    (stateAfter (exec (.reservedD 0) State.reset)).map (fun t => (t.regs.ph, t.regs.perr)) = some (.idle, true) ∧
    (stateAfter (exec (.reservedE 0) State.reset)).map (fun t => (t.regs.ph, t.regs.perr)) = some (.idle, true) := by decide

/-! ## One step of each byte class, by the examples of R101 to R113, in a `CHK` transaction -/

theorem test_ascii : scanAfter (.ascii 0x41) (placed .run 0x2 ACC 0 0) = some (0x1, 1, 1, .run) ∧
    scanAfter (.ascii 0x41) (placed .run 0x2 T1 1 0) = some (0x0, 2, 0, .stop) := by decide
theorem test_contA : scanAfter (.contA 0x8F) (placed .run 0x2 F4 1 0) = some (0x3, 2, 0, .run) ∧
    scanAfter (.contA 0x8F) (placed .run 0x2 F0 1 0) = some (0x0, 2, 0, .stop) ∧
    scanAfter (.contA 0x80) (placed .run 0x2 E0 1 0) = some (0x0, 2, 0, .stop) := by decide
theorem test_contB : scanAfter (.contB 0x9F) (placed .run 0x2 F0 1 0) = some (0x3, 2, 0, .run) ∧
    scanAfter (.contB 0x90) (placed .run 0x2 F4 1 0) = some (0x0, 2, 0, .stop) := by decide
theorem test_contC : scanAfter (.contC 0xA0) (placed .run 0x2 E0 1 0) = some (0x2, 2, 0, .run) ∧
    scanAfter (.contC 0xA0) (placed .run 0x2 ED 1 0) = some (0x0, 2, 0, .stop) := by decide
theorem test_badC0 : scanAfter (.badC0 0xC0) (placed .run 0x2 ACC 0 0) = some (0x0, 1, 0, .stop) := by decide
theorem test_lead2 : scanAfter (.lead2 0xC3) (placed .run 0x2 ACC 0 0) = some (0x2, 1, 0, .run) := by decide
theorem test_lead3E0 : scanAfter .lead3E0 (placed .run 0x2 ACC 0 0) = some (0x5, 1, 0, .run) := by decide
theorem test_lead3 : scanAfter (.lead3 0xE2) (placed .run 0x2 ACC 0 0) = some (0x3, 1, 0, .run) := by decide
theorem test_lead3ED : scanAfter .lead3ED (placed .run 0x2 ACC 0 0) = some (0x6, 1, 0, .run) := by decide
theorem test_lead4F0 : scanAfter .lead4F0 (placed .run 0x2 ACC 0 0) = some (0x7, 1, 0, .run) := by decide
/-- R111, with the correction of 90_conflicts.md C1: `T3`, not `T2`. -/
theorem test_lead4 : scanAfter (.lead4 0xF1) (placed .run 0x2 ACC 0 0) = some (0x4, 1, 0, .run) := by decide
theorem test_lead4F4 : scanAfter .lead4F4 (placed .run 0x2 ACC 0 0) = some (0x8, 1, 0, .run) := by decide
theorem test_badF5 : scanAfter (.badF5 0xFF) (placed .run 0x2 ACC 0 0) = some (0x0, 1, 0, .stop) := by decide

/-! ## The cursor, the fast path, reset, the driver -/

/-- R130: `POS` wraps from `2^LENW - 1` to 0, here with `LENW` = 4. -/
theorem test_pos_wraps :
    ((Regs.byteBeat (w := 4) false (romRead 0x41) 0x41
      { Regs.afterReset with ph := .run, mode := 0x2, pos := 15, la := 15 }).toOption.map
      (fun r => (r.pos.toNat, r.la.toNat, r.ph))) = some (0, 0, .run) := by decide

/-- R5, R130: an instance of `LENW` = 4 is a machine like any other; here its step wraps `POS`. -/
theorem test_step_at_width_4 :
    (stateAfter (step
      { lenw := 4
        regs := { Regs.afterReset with ph := .run, mode := opCHK, pos := 15, la := 15 }
        input := [presentInstr (.byte 0x41)] })).map (fun t => (t.lenw, t.regs.pos.toNat, t.regs.la.toNat, t.regs.ph))
      = some (4, 0, 0, .run) := by decide

/-- R135: the fast path leaves `NLK` alone in `CHK` and is not taken in `CHKCT`. -/
theorem test_fast_path :
    ((Regs.byteBeat (w := 32) true (romRead 0x41) 0x41
      { Regs.afterReset with ph := .run, mode := 0x2 }).toOption.map (fun r => (r.nlk, r.pos.toNat))) = some (0, 1) ∧
    ((Regs.byteBeat (w := 32) true (romRead 0x41) 0x41
      { Regs.afterReset with ph := .run, mode := 0xA }).toOption.map (fun r => (r.nlk, r.pos.toNat))) = some (1, 1) := by
  decide

/-- P7, beat 11: one cycle of reset clears everything, whatever beat it carries (R250). -/
theorem test_reset_cycle :
    stateAfter (step { (placed .run 0x2 T1 4 3) with input := [⟨true, true, .b12 0x700⟩] }) = some State.reset := by
  decide

/-- A word placed by `withFetchWord` is what the next step runs. -/
theorem test_withFetchWord :
    (stateAfter (step (State.reset.withFetchWord 16 0x501))).map (fun t => (t.regs.mode, t.regs.fin, t.regs.ph))
      = some (0x5, true, .run) ∧
    (stateAfter (step (State.reset.withFetchWord 8 0xE2))).map (fun t => (t.regs.ph, t.regs.perr)) = some (.idle, true) := by decide

/-- R10, R18: the codes of the phases. -/
theorem test_phase_codes : Phase.idle.code = 0 ∧ Phase.run.code = 1 ∧ Phase.stop.code = 2 := by decide

/-! ## Witnesses: for every obligation with hypotheses, a case that meets them -/

/-- A transaction in the middle of a sequence. -/
def midRun : State := placed .run 0x5 T2 2 1
/-- A transaction that has stopped. -/
def stopped : State := placed .stop 0x2 ERR 5 3
/-- A stream left pending. -/
def pendingStream : State := { State.reset with regs := { Regs.afterReset with ss := F4 } }

theorem midRun_inv : midRun.Inv := by
  refine ⟨by decide, ?_⟩
  constructor <;> decide
theorem stopped_inv : stopped.Inv := by
  refine ⟨by decide, ?_⟩
  constructor <;> decide

theorem witness_StepKeepsInvariant : ∃ s t, s.Inv ∧ s.input ≠ [] ∧ step s = .next t ∧ t.regs.ph = .run :=
  ⟨{ midRun with input := [presentInstr (.byte 0x82)] }, _, midRun_inv, by decide, rfl, rfl⟩

theorem witness_StepCompletesUnderInvariant : ∃ s : State, s.Inv ∧ s.input ≠ [] ∧ s.regs.ph = .stop :=
  ⟨{ stopped with input := [presentInstr (.endTx 0)] }, stopped_inv, by decide, rfl⟩

theorem witness_StepRunsDecodedBeat :
    (∃ (s : State) (x : Beat) (rest : List PortIn), s.input = PortIn.present x :: rest ∧ rest ≠ []) ∧
    (∃ (s : State) (i : Instr) (rest : List PortIn),
      i.wellFormed = true ∧ i = .lead3 0xEF ∧ s.input = presentInstr i :: rest) :=
  ⟨⟨{ midRun with input := [presentInstr (.nop 0), presentInstr (.endTx 0)] }, .b12 0x000, _, rfl, by decide⟩,
    ⟨{ midRun with input := [presentInstr (.lead3 0xEF)] }, .lead3 0xEF, [], by decide, rfl, rfl⟩⟩

/-- The smallest width R5 allows. -/
theorem witness_ResetMeetsInvariant : 1 ≤ (State.resetAt 1).lenw := by decide

/-- `SCHK`'s `END` at widths 4 and 32, at different non-zero offsets. -/
theorem witness_WidthIsFixedParameter : ∃ s s' t : State, s.lenw = 4 ∧ s'.lenw = 32 ∧
    s.regs.control = s'.regs.control ∧ (s.regs.pos = 0 ↔ s'.regs.pos = 0) ∧ s.input = s'.input ∧
    s.input ≠ [] ∧ step s = .next t :=
  ⟨{ lenw := 4
     regs := { Regs.afterReset with ph := .run, mode := opSCHK, fsm := T2, pos := 15 }
     input := [presentInstr (.endTx 0)] },
   { lenw := 32
     regs := { Regs.afterReset with ph := .run, mode := opSCHK, fsm := T2, pos := 2 }
     input := [presentInstr (.endTx 0)] }, _, rfl, rfl, rfl, by decide, rfl, by decide, rfl⟩

theorem witness_ResetCycleOverridesBeat :
    (∃ (s : State) (v : Bool) (x : Beat) (rest : List PortIn), s.input = ⟨true, v, x⟩ :: rest ∧ v = true) ∧
    (∃ s t : State, step s = .next t ∧ s.regs.perr = true ∧ t.regs.perr = false) :=
  ⟨⟨{ midRun with input := [⟨true, true, .b12 0x700⟩] }, true, .b12 0x700, [], rfl, rfl⟩,
    ⟨{ lenw := 8, regs := { Regs.afterReset with perr := true }, input := [⟨true, false, .b12 0⟩] }, State.resetAt 8, rfl, rfl, rfl⟩⟩

theorem witness_CycleWithoutBeatChangesNothing :
    (∃ (s : State) (x : Beat) (rest : List PortIn), s.input = ⟨false, false, x⟩ :: rest ∧ s.regs.ph = .run) ∧
    (∃ s : State, s.input = [] ∧ s.regs.ph = .run) :=
  ⟨⟨{ midRun with input := [⟨false, false, .b12 0x700⟩] }, .b12 0x700, [], rfl, rfl⟩, ⟨midRun, rfl, rfl⟩⟩

/-- Both ends of every class's range, and both ends of an ignored operand. -/
theorem witness_DecodeOfEncodeIsInstruction :
    ([.ascii 0x00, .ascii 0x7F, .contA 0x80, .contA 0x8F, .contB 0x90, .contB 0x9F, .contC 0xA0, .contC 0xBF,
      .badC0 0xC0, .badC0 0xC1, .lead2 0xC2, .lead2 0xDF, .lead3E0, .lead3 0xE1, .lead3 0xEC, .lead3 0xEE, .lead3 0xEF,
      .lead3ED, .lead4F0, .lead4 0xF1, .lead4 0xF3, .lead4F4, .badF5 0xF5, .badF5 0xFF, .nop 0xFF, .schk 0x7F true]
      : List Instr).all Instr.wellFormed = true := by decide

theorem witness_UnpackSelectsField :
    ((8 : Code).toNat ≤ 8 ∧ 3 < 4 ∧ unpack 0x800000000 8 = 8) ∧
    (9 ≤ (9 : Code).toNat ∧ unpack 0xFFFFFFFFF 9 = 0) ∧ (9 ≤ (15 : Code).toNat ∧ unpack 0xFFFFFFFFF 15 = 0) := by decide

/-- `41 E2 82 | 41`: `ACC` at 1, pending at 3, `ERR` at 4. -/
theorem witness_StatesTellPendingBytes :
    stateAt ACC [0x41, 0xE2, 0x82, 0x41] 1 = ACC ∧ isPending (stateAt ACC [0x41, 0xE2, 0x82, 0x41] 3) = true ∧
    lastAccept ACC [0x41, 0xE2, 0x82, 0x41] 3 = 1 ∧ stateAt ACC [0x41, 0xE2, 0x82, 0x41] 4 = ERR := by decide

theorem witness_NopOpcode : opField 0x0FF = 0x0 ∧ opField 0x4FF = 0x4 ∧ opField 0x6FF = 0x6 ∧ opField 0x7FF = 0x7 := by
  decide

theorem witness_BeginCommandsOpenTransaction :
    State.reset.regs.ph = .idle ∧ midRun.regs.ph ≠ .idle ∧ stopped.regs.ph ≠ .idle := by decide

theorem witness_SinitResetsStreamState :
    (pendingStream.regs.ph = .idle ∧ pendingStream.regs.ss ≠ ACC) ∧ midRun.regs.ph ≠ .idle := by decide

theorem witness_ReservedOpcodesSetPerrOnly :
    opField 0x8FF ∈ ([0x8, 0xB, 0xC, 0xD, 0xE, 0xF] : List Code) ∧
    opField 0xB00 ∈ ([0x8, 0xB, 0xC, 0xD, 0xE, 0xF] : List Code) ∧
    opField 0xFFF ∈ ([0x8, 0xB, 0xC, 0xD, 0xE, 0xF] : List Code) := by decide

/-- A violation and an instruction that is none, each with a next state; also for the whole-machine rules below. -/
theorem witness_ViolationsAreExactlyListed :
    (∃ t, exec (.byte 0x41) State.reset = .next t ∧ isViolation (.byte 0x41) State.reset.regs.ph = true) ∧
    (∃ t, exec (.byte 0x41) midRun = .next t ∧ isViolation (.byte 0x41) midRun.regs.ph = false) :=
  ⟨⟨_, rfl, rfl⟩, ⟨_, rfl, rfl⟩⟩

theorem witness_ViolationLeavesTransactionAlone :
    isViolation (.sinit 0) midRun.regs.ph = true ∧ isViolation (.wf 0) stopped.regs.ph = true ∧
    isViolation (.endTx 0) State.reset.regs.ph = true ∧ isViolation .lead3E0 State.reset.regs.ph = true ∧
    (∃ t, exec (.endTx 0) stopped = .next t) ∧
    (∃ s t : State, step s = .next t ∧ s.regs.perr = true ∧ ∀ c rest, s.input = c :: rest → c.rst = false) :=
  ⟨rfl, rfl, rfl, rfl, ⟨_, rfl⟩, { lenw := 8, regs := { Regs.afterReset with perr := true }, input := [] }, _, rfl, rfl,
    fun c rest h => by simp at h⟩

theorem witness_ByteStepsFsm :
    State.reset.regs.ph = .idle ∧ stopped.regs.ph = .stop ∧ (midRun.regs.ph = .run ∧ isBegin midRun.regs.mode = true) := by
  decide

theorem witness_ByteOutsideRunIsNotConsumed :
    isData (.badF5 0xFF) = true ∧ isData (.byte 0) = true ∧ stopped.regs.ph = .stop ∧ State.reset.regs.ph = .idle := by
  decide

theorem witness_AsciiContinuationAndC0Classes :
    Byte.within 0x00 0x7F 0x00 = true ∧ Byte.within 0x00 0x7F 0x7F = true ∧ Byte.within 0x80 0x8F 0x80 = true ∧
    Byte.within 0x80 0x8F 0x8F = true ∧ Byte.within 0x90 0x9F 0x90 = true ∧ Byte.within 0x90 0x9F 0x9F = true ∧
    Byte.within 0xA0 0xBF 0xA0 = true ∧ Byte.within 0xA0 0xBF 0xBF = true ∧ Byte.within 0xC0 0xC1 0xC0 = true ∧
    Byte.within 0xC0 0xC1 0xC1 = true := by decide

theorem witness_LeadAndF5Classes :
    Byte.within 0xC2 0xDF 0xC2 = true ∧ Byte.within 0xC2 0xDF 0xDF = true ∧
    (Byte.within 0xE1 0xEC 0xE1 || Byte.within 0xEE 0xEF 0xE1) = true ∧
    (Byte.within 0xE1 0xEC 0xEC || Byte.within 0xEE 0xEF 0xEC) = true ∧
    (Byte.within 0xE1 0xEC 0xEE || Byte.within 0xEE 0xEF 0xEE) = true ∧
    (Byte.within 0xE1 0xEC 0xEF || Byte.within 0xEE 0xEF 0xEF) = true ∧ Byte.within 0xF1 0xF3 0xF1 = true ∧
    Byte.within 0xF1 0xF3 0xF3 = true ∧ Byte.within 0xF5 0xFF 0xF5 = true ∧ Byte.within 0xF5 0xFF 0xFF = true := by decide

theorem witness_ClassBeatsStepFsm : midRun.regs.ph = .run ∧ isBegin midRun.regs.mode = true := by decide

/-- `IDLE`, and each mode open. -/
theorem witness_EndWritesResultByMode :
    State.reset.regs.ph = .idle ∧
    ([0x1, 0x2, 0x3, 0x5, 0x9, 0xA] : List Code).all (fun m =>
      decide ((placed .stop m ERR 1 0).regs.ph ≠ .idle) && decide ((placed .stop m ERR 1 0).regs.mode = m)) = true := by decide

/-- The five cases of R184, at the smallest cursor and at the largest. -/
theorem witness_EndReportsChunkResult :
    (placed .run 0x5 F4 0 0).regs.pos = 0 ∧
    ((placed .stop 0x5 ERR 1 0).regs.pos ≠ 0 ∧ (placed .stop 0x5 ERR 1 0).regs.fsm = 0x0) ∧
    ((placed .run 0x5 ACC 0xFFFFFFFF 1).regs.pos ≠ 0 ∧ (placed .run 0x5 ACC 0xFFFFFFFF 1).regs.fsm = 0x1) ∧
    (∃ s : State, s.regs.ph ≠ .idle ∧ s.regs.mode = 0x5 ∧ s.regs.pos ≠ 0 ∧ s.regs.fsm ≠ 0x0 ∧ s.regs.fsm ≠ 0x1 ∧
      s.regs.fin = true) ∧
    (midRun.regs.ph ≠ .idle ∧ midRun.regs.mode = 0x5 ∧ midRun.regs.pos ≠ 0 ∧ midRun.regs.fsm ≠ 0x0 ∧
      midRun.regs.fsm ≠ 0x1 ∧ midRun.regs.fin = false) :=
  ⟨by decide, by decide, by decide, ⟨{ midRun with regs := { midRun.regs with fin := true } }, by decide⟩, by decide⟩

/-- `BYTE` in `RUN` to `STOP`, `END` in `STOP`, a begin command in `IDLE`: for the statements of every `exec i s = .next t`. -/
theorem witness_PhasesFollowTable :
    (∃ t, exec (.byte 0x41) midRun = .next t ∧ t.regs.ph = .stop) ∧
    (∃ t, exec (.endTx 0) stopped = .next t ∧ t.regs.ph = .idle) ∧
    (∃ t, exec (.schk 0 true) pendingStream = .next t ∧ t.regs.ph = .run) :=
  ⟨⟨_, rfl, rfl⟩, ⟨_, rfl, rfl⟩, ⟨_, rfl, rfl⟩⟩

theorem witness_OnlyStreamingWritesStreamState :
    (∃ t, exec (.sinit 0) pendingStream = .next t ∧ t.regs.ss ≠ pendingStream.regs.ss) ∧
    (∃ t, exec (.endTx 0) midRun = .next t ∧ t.regs.ss ≠ midRun.regs.ss) :=
  ⟨⟨_, rfl, by decide⟩, ⟨_, rfl, by decide⟩⟩

theorem witness_OnlyEndWritesResult :
    (∃ t, exec (.nop 0) midRun = .next t ∧ ¬(ends (.nop 0) = true ∧ midRun.regs.ph ≠ .idle)) ∧
    (∃ t, exec (.endTx 0) State.reset = .next t ∧ ¬(ends (.endTx 0) = true ∧ State.reset.regs.ph ≠ .idle)) :=
  ⟨⟨_, rfl, by decide⟩, ⟨_, rfl, by decide⟩⟩

theorem witness_OnlyBeginAndByteMoveCursor :
    ∃ t, exec (.byte 0x41) stopped = .next t ∧ ¬(begins (.byte 0x41) = true ∧ stopped.regs.ph = .idle) ∧
      ¬(isData (.byte 0x41) = true ∧ stopped.regs.ph = .run) :=
  ⟨_, rfl, by decide, by decide⟩

theorem witness_FastPathIsTransparent :
    (0x9 : Code).getLsbD 3 = true ∧
    ∃ x : Regs 32, Regs.byteBeat true (romRead 0x7F) 0x7F { Regs.afterReset with ph := .run, mode := 0x1 } = .ok x :=
  ⟨by decide, _, rfl⟩

/-- The bound is met with equality at width 1 and at width 0. -/
theorem witness_TransactionComputesScan :
    isBegin opSCHK = true ∧ ([0xF0] : List Byte).length ≤ 2 ^ 1 - 1 ∧ ([] : List Byte).length ≤ 2 ^ 0 - 1 ∧
    (Regs.afterReset : Regs 1).ph = .idle := by decide

theorem witness_SingleShotAgreesWithValidate :
    State.reset.regs.ph = .idle ∧ ([0xE2, 0x82, 0xAC, 0xED, 0xA0, 0x80] : List Byte).length ≤ 2 ^ State.reset.lenw - 1 := by
  decide

theorem witness_EmptyChunkLeavesStreamPending : pendingStream.regs.ph = .idle ∧ isPending pendingStream.regs.ss = true := by
  decide

theorem witness_ConstantTimeLooksUpEveryByte :
    (opCHKCT = opWFCT ∨ opCHKCT = opCHKCT) ∧ (Regs.afterReset : Regs 4).ph = .idle := by decide

/-- A width-1 chunk of two bytes from a pending Stream State: exactly `2^LENW` bytes are consumed. -/
theorem witness_VerdictSurvivesWrap :
    isBegin opMSL = true ∧ (scan T3 [0x80, 0x80] (stopNow opSCHK)).pos = 2 ^ 1 ∧ (Regs.afterReset : Regs 1).ph = .idle := by
  decide

/-- S1 and the surrogate example of R151: both verdicts occur. -/
theorem witness_PrefixLengthLocatesMalformation :
    validate [0xC3, 0xA9] = (true, 2) ∧ validate [0xE2, 0x82, 0xAC, 0xED, 0xA0, 0x80] = (false, 3) := by decide

theorem witness_MaximalSubpartBounds : ([0xF0, 0x90, 0x80, 0x80] : List Byte) ≠ [] ∧
    msl [0xF0, 0x90, 0x80, 0x80] = 4 ∧ msl [] = 0 := by decide

/-- `E2 82 41`: the subpart is `E2 82`, and the three bytes are no prefix of a sequence. -/
theorem witness_MaximalSubpartIsLongestPrefix :
    ([0xE2, 0x82, 0x41] : List Byte) ≠ [] ∧ msl [0xE2, 0x82, 0x41] < 3 ∧ 3 ≤ ([0xE2, 0x82, 0x41] : List Byte).length := by
  decide

/-- R172's two cases: `ERR` reached, and the buffer ended pending. -/
theorem witness_SubpartFollowsFromCheck :
    ((validate [0x41, 0xED, 0xA0]).1 = false ∧ firstError ACC [0x41, 0xED, 0xA0] = some (2 + 1)) ∧
    ((validate [0x41, 0xE2, 0x82]).1 = false ∧ firstError ACC [0x41, 0xE2, 0x82] = none) ∧
    State.reset.regs.ph = .idle ∧ ([0x41, 0xED, 0xA0] : List Byte).length ≤ 2 ^ State.reset.lenw - 1 := by decide

/-- A sequence begun by `F0 9F` and broken by the next chunk's first byte. -/
theorem witness_ResumePointLiesInChunk :
    isPending (runDelta ACC [0xF0, 0x9F, 0x98]) = true ∧
    lastAccept ACC [0xF0, 0x9F, 0x98] ([0xF0, 0x9F, 0x98] : List Byte).length = 0 := by decide

/-- The stream of R191, whose lengths are 0, 0, 2. -/
theorem witness_StreamVerdictEqualsSingleShot :
    State.reset.regs.ph = .idle ∧ State.reset.regs.ss = ACC ∧
    (∀ c ∈ ([[0xF0], [0x9F], [0x98, 0x80]] : List (List Byte)), c ≠ [] ∧ c.length ≤ 2 ^ State.reset.lenw - 1) := by decide

theorem witness_StreamLengthsLocatePendingSequence :
    (runStream State.reset [[0xF0], [0x9F], [0x98, 0x80]]).map
      (fun ts => ts.map fun t => (t.regs.rDone, t.regs.rErr, t.regs.rLen.toNat))
      = some [(true, false, 0), (true, false, 0), (true, false, 2)] := by decide

theorem witness_PortTimingIgnoresData :
    midRun.Inv ∧ stopped.Inv ∧ (midRun.regs.ph = .idle ↔ stopped.regs.ph = .idle) ∧
    midRun.regs.rDone = stopped.regs.rDone ∧ midRun.regs.perr = stopped.regs.perr ∧
    List.Forall₂ SameButData [presentInstr (.byte 0x82), presentInstr (.endTx 0)]
      [presentInstr (.byte 0x41), presentInstr (.endTx 0)] :=
  ⟨midRun_inv, stopped_inv, by decide, rfl, rfl,
    .cons ⟨rfl, rfl, .inr ⟨by decide, by decide⟩⟩ (.cons ⟨rfl, rfl, .inl rfl⟩ .nil)⟩

end Sys2Proof.Tests
end

section
/-! The reset state (spec/10_state.md R27). -/

namespace Sys2Proof.Machine

/-- The table of R27 as numerals: no register is left out, and no value depends on `LENW`. -/
theorem afterReset_eq (w : Nat) :
    (Regs.afterReset : Regs w) =
      { fsm := 0x1, ss := 0x1, pos := 0, la := 0, ph := .idle, mode := 0x0, fin := false,
        rDone := false, rErr := false, rLen := 0, perr := false, nlk := 0 } := rfl

/-- Settles O1: an instance of any `LENW` starts with the registers of R27, and `State.reset` is the one of the default. -/
theorem resetHoldsR27Values : Obligations.ResetHoldsR27Values := by
  refine ⟨fun w => ?_, reset_eq⟩
  rw [State.resetAt, afterReset_eq]

end Sys2Proof.Machine
end

section
/-! The opcode table and decoding (spec/30_encoding.md R60 to R64, R73). -/

namespace Sys2Proof.Machine

/-- R60: a beat is its two fields, and no bit is left out. -/
theorem opField_append_datField (w : Wires) : opField w ++ datField w = w := by
  rw [opField, datField, BitVec.extractLsb'_append_extractLsb'_eq_extractLsb' (by rfl)]
  exact BitVec.extractLsb'_eq_self

/-- The mask of the `B12` rows keeps the opcode and clears the operand. -/
theorem and_opMask (w : Wires) : w &&& 0xF00#12 = opField w ++ 0x00#8 := by
  have hmask : 0xF00#12 = BitVec.allOnes 4 ++ 0x00#8 := by decide
  calc w &&& 0xF00#12
      = (opField w ++ datField w) &&& (BitVec.allOnes 4 ++ 0x00#8) := by rw [opField_append_datField, hmask]
    _ = opField w ++ 0x00#8 := by rw [BitVec.and_append, BitVec.and_allOnes, BitVec.and_zero]

/-- Every `B12` row is an opcode with the operand left free. -/
theorem commandRows_fix_opcode :
    ∀ r ∈ commandRows, r.mask = 0xF00#12 ∧ r.value = opField r.value ++ 0x00#8 := by decide

/-- Which `B12` rows a word matches depends on its opcode alone. -/
theorem matches_commandRow (w : Wires) {r : TableRow} (hr : r ∈ commandRows) :
    r.matches w = decide (opField r.value = opField w) := by
  obtain ⟨hm, hv⟩ := commandRows_fix_opcode r hr
  rw [TableRow.matches, hm, and_opMask]
  refine decide_eq_decide.mpr ⟨fun h => ?_, fun h => by rw [hv, h]⟩
  rw [← h, Laws.WiresCarryOpcode.opField_append]

/-- The mnemonic of a command is that of its opcode, whatever the operand holds. -/
theorem mnemonic_decodeCommand (op : Code) (d e : Byte) :
    (decodeCommand op d).mnemonic = (decodeCommand op e).mnemonic := by
  simp only [decodeCommand, apply_ite Instr.mnemonic]
  rfl

/-- The sixteen opcodes have one `B12` row each. -/
theorem commandRows_of_opcode (op : Code) :
    (commandRows.filter (fun r => opField r.value = op)).map TableRow.mnemonic
      = [(decodeCommand op 0).mnemonic] := by
  revert op; decide

/-- The 256 bytes match one `BYTE8` row each. -/
theorem classRows_of_byte (b : Byte) :
    (classRows.filter (fun r => r.matches (0x0#4 ++ b))).map TableRow.mnemonic = [(decodeClass b).mnemonic] := by
  revert b; decide

/-- Settles O12: a `B12` row fixes the opcode and nothing else, and each opcode and each byte has one row. -/
theorem decodeFollowsOpcodeTable : Obligations.DecodeFollowsOpcodeTable := by
  refine ⟨fun w => ?_, classRows_of_byte⟩
  rw [List.filter_congr fun r hr => matches_commandRow w hr, commandRows_of_opcode, decodeBeat,
    mnemonic_decodeCommand]

end Sys2Proof.Machine
end

section
/-! The field of a ROM row that a state code selects (spec/30_encoding.md R72). -/

namespace Sys2Proof.Machine

theorem unpack_of_le (row : Row) {s : Code} (h : s.toNat ≤ 8) : unpack row s = row.extractLsb' (4 * s.toNat) 4 :=
  if_pos h

theorem unpack_of_ge (row : Row) {s : Code} (h : 9 ≤ s.toNat) : unpack row s = ERR :=
  if_neg (by omega)

/-- Settles O15: the two arms of `unpack`, the first bit by bit. -/
theorem unpackSelectsField : Obligations.UnpackSelectsField := by
  refine ⟨fun row s j hs hj => ?_, fun row s hs => unpack_of_ge row hs⟩
  rw [unpack_of_le row hs, BitVec.getLsbD_extractLsb', decide_eq_true hj, Bool.true_and]

end Sys2Proof.Machine
end

section
/-! The reserved opcodes (spec/30_encoding.md R64). -/

namespace Sys2Proof.Machine

/-- A beat with a reserved opcode is the violation of R226, whatever its operand and the phase. -/
theorem exec_reservedOpcode {op : Code} (h : op ∈ ([0x8, 0xB, 0xC, 0xD, 0xE, 0xF] : List Code)) (d : Byte)
    (s : State) : exec (decodeCommand op d) s = .next (s.mapRegs Regs.violation) := by
  simp only [List.mem_cons, List.not_mem_nil, or_false] at h
  rcases h with rfl | rfl | rfl | rfl | rfl | rfl <;> rfl

/-- Settles O25: every reserved instruction is what a reserved opcode decodes to. -/
theorem reservedOpcodesSetPerrOnly : Obligations.ReservedOpcodesSetPerrOnly := by
  refine ⟨fun d s => ⟨?_, ?_, ?_, ?_, ?_, ?_⟩, fun w s h => exec_reservedOpcode h (datField w) s⟩
  · exact exec_reservedOpcode (op := 0x8) (by decide) d s
  · exact exec_reservedOpcode (op := 0xB) (by decide) d s
  · exact exec_reservedOpcode (op := 0xC) (by decide) d s
  · exact exec_reservedOpcode (op := 0xD) (by decide) d s
  · exact exec_reservedOpcode (op := 0xE) (by decide) d s
  · exact exec_reservedOpcode (op := 0xF) (by decide) d s

end Sys2Proof.Machine
end

section
/-! The transition ROM and the byte classes (spec/40_transition_table.md R90 to R97, R101 to R113): a byte's row is the
row of its class, the ROM's columns are the rules of the grammar, and the check sums of R96 are taken a quarter at a time. -/

namespace Sys2Proof.Machine

/-! ## A byte and its class -/

/-- R96: the listed row of a byte is the row its class's own rule prints. -/
theorem romRead_eq_dataRow (b : Byte) : romRead b = dataRow (decodeClass b) := by
  revert b; decide

theorem delta_eq_unpack_dataRow (s : Code) (b : Byte) : delta s b = unpack (dataRow (decodeClass b)) s := by
  rw [delta, romRead_eq_dataRow]

theorem encode_decodeClass (b : Byte) : encode (decodeClass b) = .byte8 b := by
  revert b; decide

/-- R73: a byte in the range of a class is decoded to that class. -/
theorem decodeClass_of_wellFormed {i : Instr} {b : Byte} (hw : i.wellFormed = true) (he : encode i = .byte8 b) :
    decodeClass b = i := by
  cases i with
  | ascii x | contA x | contB x | contC x | badC0 x | lead2 x | lead3 x | lead4 x | badF5 x =>
    obtain rfl : x = b := Beat.byte8.inj he
    revert x; decide
  | lead3E0 | lead3ED | lead4F0 | lead4F4 =>
    obtain rfl := Beat.byte8.inj he
    rfl
  | _ => cases he

/-- The rule of a class, from its row: a byte in its range has its class instruction, that row in the ROM, and the row's
fields for successors. -/
theorem class_rule_of_row {i : Instr} {b : Byte} {row : Row} {next : Code → Code} (hw : i.wellFormed = true)
    (he : encode i = .byte8 b) (hrow : dataRow i = row) (hnext : ∀ s, unpack row s = next s) :
    decodeClass b = i ∧ romRead b = row ∧ ∀ s, delta s b = next s := by
  have hclass : decodeClass b = i := decodeClass_of_wellFormed hw he
  have hread : romRead b = row := by rw [romRead_eq_dataRow, hclass, hrow]
  exact ⟨hclass, hread, fun s => by rw [delta, hread, hnext]⟩

/-- Settles O30: each row's nine fields are the successors its rule lists. -/
theorem asciiContinuationAndC0Classes : Obligations.AsciiContinuationAndC0Classes := by
  refine ⟨fun b h => ?_, fun b h => ?_, fun b h => ?_, fun b h => ?_, fun b h => ?_⟩
  · exact class_rule_of_row (i := .ascii b) h rfl rfl (by decide)
  · exact class_rule_of_row (i := .contA b) h rfl rfl (by decide)
  · exact class_rule_of_row (i := .contB b) h rfl rfl (by decide)
  · exact class_rule_of_row (i := .contC b) h rfl rfl (by decide)
  · exact class_rule_of_row (i := .badC0 b) h rfl rfl (by decide)

/-- Settles O31: each row's nine fields are the successors its rule lists. -/
theorem leadAndF5Classes : Obligations.LeadAndF5Classes := by
  refine ⟨fun b h => ?_, ?_, fun b h => ?_, ?_, ?_, fun b h => ?_, ?_, fun b h => ?_⟩
  · exact class_rule_of_row (i := .lead2 b) h rfl rfl (by decide)
  · exact class_rule_of_row (i := .lead3E0) rfl rfl rfl (by decide)
  · exact class_rule_of_row (i := .lead3 b) h rfl rfl (by decide)
  · exact class_rule_of_row (i := .lead3ED) rfl rfl rfl (by decide)
  · exact class_rule_of_row (i := .lead4F0) rfl rfl rfl (by decide)
  · exact class_rule_of_row (i := .lead4 b) h rfl rfl (by decide)
  · exact class_rule_of_row (i := .lead4F4) rfl rfl rfl (by decide)
  · exact class_rule_of_row (i := .badF5 b) h rfl rfl (by decide)

/-! ## The ROM's columns -/

/-- R91. -/
@[simp] theorem delta_ERR (b : Byte) : delta ERR b = ERR := by
  rw [delta_eq_unpack_dataRow]; revert b; decide

/-- R92. -/
theorem delta_ACC (b : Byte) : delta ACC b = deltaFromAcc b := by
  rw [delta_eq_unpack_dataRow]; revert b; decide

/-- R93. -/
theorem delta_T1 (b : Byte) : delta T1 b = if isCont b then ACC else ERR := by
  rw [delta_eq_unpack_dataRow]; revert b; decide

/-- R93. -/
theorem delta_T2 (b : Byte) : delta T2 b = if isCont b then T1 else ERR := by
  rw [delta_eq_unpack_dataRow]; revert b; decide

/-- R93. -/
theorem delta_T3 (b : Byte) : delta T3 b = if isCont b then T2 else ERR := by
  rw [delta_eq_unpack_dataRow]; revert b; decide

/-- R94. -/
theorem delta_E0 (b : Byte) : delta E0 b = if Byte.within 0xA0 0xBF b then T1 else ERR := by
  rw [delta_eq_unpack_dataRow]; revert b; decide

/-- R94. -/
theorem delta_ED (b : Byte) : delta ED b = if Byte.within 0x80 0x9F b then T1 else ERR := by
  rw [delta_eq_unpack_dataRow]; revert b; decide

/-- R94. -/
theorem delta_F0 (b : Byte) : delta F0 b = if Byte.within 0x90 0xBF b then T2 else ERR := by
  rw [delta_eq_unpack_dataRow]; revert b; decide

/-- R94. -/
theorem delta_F4 (b : Byte) : delta F4 b = if Byte.within 0x80 0x8F b then T2 else ERR := by
  rw [delta_eq_unpack_dataRow]; revert b; decide

/-- R72: a code that names no state goes to `ERR`. -/
theorem delta_of_unnamed {s : Code} (h : 9 ≤ s.toNat) (b : Byte) : delta s b = ERR := unpack_of_ge _ h

/-- R70: the nine states, and the codes that name none. -/
theorem code_cases (s : Code) :
    s = ERR ∨ s = ACC ∨ s = T1 ∨ s = T2 ∨ s = T3 ∨ s = E0 ∨ s = ED ∨ s = F0 ∨ s = F4 ∨ 9 ≤ s.toNat := by
  revert s; decide

theorem deltaRule_of_unnamed {s : Code} (h : 9 ≤ s.toNat) (b : Byte) : deltaRule s b = ERR := by
  have hne (c : Code) (hc : c.toNat ≤ 8) : s ≠ c := by rintro rfl; omega
  simp [deltaRule, hne]

/-- Settles O16: state by state, the ROM's column is the state's rule. -/
theorem romImplementsGrammar : Obligations.RomImplementsGrammar := by
  intro s b
  rcases code_cases s with rfl | rfl | rfl | rfl | rfl | rfl | rfl | rfl | rfl | h
  · exact delta_ERR b
  · exact delta_ACC b
  · exact delta_T1 b
  · exact delta_T2 b
  · exact delta_T3 b
  · exact delta_E0 b
  · exact delta_ED b
  · exact delta_F0 b
  · exact delta_F4 b
  · rw [delta_of_unnamed h, deltaRule_of_unnamed h]

/-! ## The check sums of R96 -/

theorem rom_length : rom.length = 256 := by
  simp only [rom, List.length_append]; rfl

/-- The words that occur: `BAD_F5` shares the zero word of `BAD_C0`, and no other class shares its word. -/
theorem rom_toFinset : rom.toFinset =
    {rowAscii, rowContA, rowContB, rowContC, rowBadC0, rowLead2, rowLead3E0, rowLead3, rowLead3ED, rowLead4F0,
      rowLead4, rowLead4F4} := by
  have h0 : romRows0.toFinset = {rowAscii} := by decide
  have h1 : romRows1.toFinset = {rowAscii} := by decide
  have h2 : romRows2.toFinset = {rowContA, rowContB, rowContC} := by decide
  have h3 : romRows3.toFinset =
      {rowBadC0, rowLead2, rowLead3E0, rowLead3, rowLead3ED, rowLead4F0, rowLead4, rowLead4F4} := by decide
  rw [rom, List.toFinset_append, List.toFinset_append, List.toFinset_append, h0, h1, h2, h3]
  rfl

theorem rom_dedup_length : rom.dedup.length = 12 := by
  rw [← List.card_toFinset, rom_toFinset]; rfl

theorem rom_nonzero_length : (rom.filter (fun r => decide (r ≠ 0))).length = 243 := by
  simp only [rom, List.filter_append, List.length_append]; decide

theorem rom_sum : (rom.map BitVec.toNat).sum = 245967114432 := by
  simp only [rom, List.map_append, List.sum_append]; decide

theorem rom_xor : rom.foldl (fun x r => x ^^^ r) 0 = 0x000000080#36 := by
  have h0 : romRows0.foldl (fun x r => x ^^^ r) 0 = 0 := by decide
  have h1 : romRows1.foldl (fun x r => x ^^^ r) 0 = 0 := by decide
  have h2 : romRows2.foldl (fun x r => x ^^^ r) 0 = 0 := by decide
  have h3 : romRows3.foldl (fun x r => x ^^^ r) 0 = 0x000000080#36 := by decide
  simp only [rom, List.foldl_append, h0, h1, h2, h3]

/-- Settles O17: the sums over the four quarters of the listing, and the row of each class. -/
theorem romListsClassRows : Obligations.RomListsClassRows := by
  refine ⟨rom_length, rom_dedup_length, rom_nonzero_length, rom_sum, rom_xor, fun b => ?_⟩
  rw [romRead_eq_dataRow]
  have hclass : encode (decodeClass b) = .byte8 b := encode_decodeClass b
  cases hi : decodeClass b with
  | nop | wf | chk | msl | sinit | schk | byte | endTx | wfct | chkct | reserved8 | reservedB | reservedC | reservedD
  | reservedE | reservedF => rw [hi] at hclass; cases hclass
  | _ => rfl

end Sys2Proof.Machine
end

section
/-! What a state says of the sequence it is in (spec/40_transition_table.md R99, R100): the continuations that complete a
sequence of the eight shapes, followed byte by byte. -/

namespace Sys2Proof.Machine

/-- The byte strings that finish the sequence a state is in: in `ACC` it is complete, elsewhere by R100. -/
def finishes (s : Code) (q : List Byte) : Bool := if s = ACC then q.isEmpty else completes s q

theorem finishes_of_ne {s : Code} (h : s ≠ ACC) (q : List Byte) : finishes s q = completes s q := if_neg h

theorem completes_ERR (q : List Byte) : completes ERR q = false := rfl

theorem completes_of_unnamed {s : Code} (h : 9 ≤ s.toNat) (q : List Byte) : completes s q = false := by
  have hne (c : Code) (hc : c.toNat ≤ 8) : s ≠ c := by rintro rfl; omega
  simp [completes, hne]

/-- The tests of `isShape` on a first byte, by the state R92 gives that byte. -/
theorem leadTests_eq_deltaFromAcc (a : Byte) :
    Byte.within 0x00 0x7F a = decide (deltaFromAcc a = ACC) ∧
    Byte.within 0xC2 0xDF a = decide (deltaFromAcc a = T1) ∧
    (Byte.within 0xE1 0xEC a || Byte.within 0xEE 0xEF a) = decide (deltaFromAcc a = T2) ∧
    decide (a = 0xE0) = decide (deltaFromAcc a = E0) ∧ decide (a = 0xED) = decide (deltaFromAcc a = ED) ∧
    Byte.within 0xF1 0xF3 a = decide (deltaFromAcc a = T3) ∧
    decide (a = 0xF0) = decide (deltaFromAcc a = F0) ∧ decide (a = 0xF4) = decide (deltaFromAcc a = F4) := by
  revert a; decide

/-! ### What finishes a state, by the length of the string: the columns of the table of R99 -/

theorem finishes_nil (s : Code) : finishes s [] = decide (s = ACC) := by
  revert s; decide

theorem finishes_singleton (s : Code) (b : Byte) : finishes s [b] = (decide (s = T1) && isCont b) := by
  simp only [finishes, completes]; split_ifs <;> simp_all

theorem finishes_pair (s : Code) (b c : Byte) : finishes s [b, c] =
    (((decide (s = E0) && Byte.within 0xA0 0xBF b) || (decide (s = T2) && isCont b)
      || (decide (s = ED) && Byte.within 0x80 0x9F b)) && isCont c) := by
  simp only [finishes, completes]; split_ifs <;> simp_all

theorem finishes_triple (s : Code) (b c d : Byte) : finishes s [b, c, d] =
    (((decide (s = F0) && Byte.within 0x90 0xBF b) || (decide (s = T3) && isCont b)
      || (decide (s = F4) && Byte.within 0x80 0x8F b)) && isCont c && isCont d) := by
  simp only [finishes, completes]; split_ifs <;> simp_all

theorem finishes_of_four_le (s : Code) (b c d e : Byte) (q : List Byte) :
    finishes s (b :: c :: d :: e :: q) = false := by
  simp only [finishes, completes]; split_ifs <;> rfl

/-- A sequence is a first byte, and what finishes it from the state that byte leads to. -/
theorem isShape_cons (a : Byte) (q : List Byte) : isShape (a :: q) = finishes (delta ACC a) q := by
  obtain ⟨hACC, hT1, hT2, hE0, hED, hT3, hF0, hF4⟩ := leadTests_eq_deltaFromAcc a
  rw [delta_ACC]
  rcases q with _ | ⟨b, _ | ⟨c, _ | ⟨d, _ | ⟨e, q⟩⟩⟩⟩
  · rw [finishes_nil, ← hACC, isShape]
  · rw [finishes_singleton, ← hT1, isShape]
  · rw [finishes_pair, ← hE0, ← hT2, ← hED, isShape]
  · rw [finishes_triple, ← hF0, ← hT3, ← hF4, isShape]
  · rw [finishes_of_four_le]; rfl

/-! ### What completes a pending state, by its first byte: R100's "then one", "then two" -/

theorem completes_T1_cons (b : Byte) (q : List Byte) : completes T1 (b :: q) = (isCont b && q.isEmpty) := by
  cases q <;> simp [completes]

theorem completes_T2_cons (b : Byte) (q : List Byte) : completes T2 (b :: q) = (isCont b && completes T1 q) := by
  rcases q with _ | ⟨c, _ | ⟨d, q⟩⟩ <;> simp [completes]

theorem completes_T3_cons (b : Byte) (q : List Byte) : completes T3 (b :: q) = (isCont b && completes T2 q) := by
  rcases q with _ | ⟨c, _ | ⟨d, _ | ⟨e, q⟩⟩⟩ <;> simp [completes, Bool.and_assoc]

theorem completes_E0_cons (b : Byte) (q : List Byte) :
    completes E0 (b :: q) = (Byte.within 0xA0 0xBF b && completes T1 q) := by
  rcases q with _ | ⟨c, _ | ⟨d, q⟩⟩ <;> simp [completes]

theorem completes_ED_cons (b : Byte) (q : List Byte) :
    completes ED (b :: q) = (Byte.within 0x80 0x9F b && completes T1 q) := by
  rcases q with _ | ⟨c, _ | ⟨d, q⟩⟩ <;> simp [completes]

theorem completes_F0_cons (b : Byte) (q : List Byte) :
    completes F0 (b :: q) = (Byte.within 0x90 0xBF b && completes T2 q) := by
  rcases q with _ | ⟨c, _ | ⟨d, _ | ⟨e, q⟩⟩⟩ <;> simp [completes, Bool.and_assoc]

theorem completes_F4_cons (b : Byte) (q : List Byte) :
    completes F4 (b :: q) = (Byte.within 0x80 0x8F b && completes T2 q) := by
  rcases q with _ | ⟨c, _ | ⟨d, _ | ⟨e, q⟩⟩⟩ <;> simp [completes, Bool.and_assoc]

/-- A byte consumed before the sequence is complete leaves what finishes it from the next state; if the byte breaks the
sequence, both sides are false. -/
theorem completes_cons {s : Code} (hs : s ≠ ACC) (b : Byte) (q : List Byte) :
    completes s (b :: q) = finishes (delta s b) q := by
  rcases code_cases s with rfl | rfl | rfl | rfl | rfl | rfl | rfl | rfl | rfl | h
  · rw [delta_ERR]; rfl
  · contradiction
  · rw [delta_T1, completes_T1_cons]; cases isCont b <;> rfl
  · rw [delta_T2, completes_T2_cons]; cases isCont b <;> rfl
  · rw [delta_T3, completes_T3_cons]; cases isCont b <;> rfl
  · rw [delta_E0, completes_E0_cons]; cases Byte.within 0xA0 0xBF b <;> rfl
  · rw [delta_ED, completes_ED_cons]; cases Byte.within 0x80 0x9F b <;> rfl
  · rw [delta_F0, completes_F0_cons]; cases Byte.within 0x90 0xBF b <;> rfl
  · rw [delta_F4, completes_F4_cons]; cases Byte.within 0x80 0x8F b <;> rfl
  · rw [delta_of_unnamed h, completes_of_unnamed h]; rfl

/-- Every pending state can go on to complete its sequence. -/
theorem exists_completes_of_isPending {s : Code} (h : isPending s = true) :
    ∃ q, q ≠ [] ∧ completes s q = true := by
  have hfound : ∃ q ∈ ([[0x80], [0x80, 0x80], [0x80, 0x80, 0x80], [0xA0, 0x80], [0x90, 0x80, 0x80]] :
      List (List Byte)), q ≠ [] ∧ completes s q = true := by
    revert s; decide
  obtain ⟨q, -, hq⟩ := hfound
  exact ⟨q, hq⟩

/-! ### The bytes since the last Accept point -/

theorem lastAccept_of_accept {s0 : Code} {b : List Byte} {k : Nat} (h : stateAt s0 b k = ACC) :
    lastAccept s0 b k = k := by
  cases k with
  | zero => rfl
  | succ k => exact if_pos h

theorem lastAccept_succ_of_ne {s0 : Code} {b : List Byte} {k : Nat} (h : stateAt s0 b (k + 1) ≠ ACC) :
    lastAccept s0 b (k + 1) = lastAccept s0 b k := if_neg h

theorem lastAccept_le (s0 : Code) (b : List Byte) (k : Nat) : lastAccept s0 b k ≤ k := by
  induction k with
  | zero => exact Nat.le_refl 0
  | succ k ih =>
    by_cases h : stateAt s0 b (k + 1) = ACC
    · exact (lastAccept_of_accept h).le
    · rw [lastAccept_succ_of_ne h]; omega

/-- A run from `ACC` that is not in `ACC` has left its last Accept point behind. -/
theorem lastAccept_lt_of_ne {b : List Byte} {k : Nat} (h : stateAt ACC b k ≠ ACC) : lastAccept ACC b k < k := by
  cases k with
  | zero => exact absurd rfl h
  | succ k => rw [lastAccept_succ_of_ne h]; exact Nat.lt_succ_of_le (lastAccept_le ACC b k)

/-- `b[j:k]`, where `j` is the last Accept point of the run from `ACC` (R100). -/
def sinceAccept (b : List Byte) (k : Nat) : List Byte := (b.take k).drop (lastAccept ACC b k)

theorem sinceAccept_of_accept {b : List Byte} {k : Nat} (h : stateAt ACC b k = ACC) : sinceAccept b k = [] := by
  rw [sinceAccept, lastAccept_of_accept h]
  exact List.drop_eq_nil_of_le (List.length_take_le k b)

theorem sinceAccept_succ_of_ne {b : List Byte} {k : Nat} (hk : k < b.length) (h : stateAt ACC b (k + 1) ≠ ACC) :
    sinceAccept b (k + 1) = sinceAccept b k ++ [b[k]] := by
  have hj : lastAccept ACC b k ≤ (b.take k).length := by
    rw [List.length_take_of_le hk.le]; exact lastAccept_le ACC b k
  rw [sinceAccept, sinceAccept, lastAccept_succ_of_ne h, List.take_succ_eq_append_getElem hk,
    List.drop_append_of_le_length hj]

/-- R100, in every state but `ACC`: what makes the bytes since the last Accept point a sequence is exactly what completes
the state. In `ERR` nothing does. -/
theorem isShape_sinceAccept_append {b : List Byte} {k : Nat} (hk : k ≤ b.length) (h : stateAt ACC b k ≠ ACC)
    (q : List Byte) : isShape (sinceAccept b k ++ q) = completes (stateAt ACC b k) q := by
  induction k generalizing q with
  | zero => exact absurd rfl h
  | succ k ih =>
    rw [sinceAccept_succ_of_ne hk h, List.append_assoc, List.singleton_append, ← finishes_of_ne h,
      stateAt_succ ACC b k hk]
    by_cases hacc : stateAt ACC b k = ACC
    · rw [sinceAccept_of_accept hacc, hacc]; exact isShape_cons b[k] q
    · rw [ih (Nat.le_of_lt hk) hacc, completes_cons hacc]

/-- Settles O21: the three readings of a state, the last two from `isShape_sinceAccept_append`. -/
theorem statesTellPendingBytes : Obligations.StatesTellPendingBytes := by
  refine fun b k hk => ⟨lastAccept_of_accept, fun hpend => ?_, fun herr => ?_⟩
  · have hne : stateAt ACC b k ≠ ACC := fun h => absurd (h ▸ hpend) (by decide)
    have hshape := isShape_sinceAccept_append hk hne
    obtain ⟨q, hq, hcompl⟩ := exists_completes_of_isPending hpend
    exact ⟨lastAccept_lt_of_ne hne, ⟨q, hq, (hshape q).trans hcompl⟩, hshape⟩
  · have hne : stateAt ACC b k ≠ ACC := fun h => absurd (h.symm.trans herr) (by decide)
    refine ⟨(sinceAccept b k).length, fun q => ?_⟩
    rw [← sinceAccept, List.take_length, isShape_sinceAccept_append hk hne, herr, completes_ERR]

end Sys2Proof.Machine
end

section
/-! The begin commands (spec/41_sequencer.md R121). -/

namespace Sys2Proof.Machine

theorem exec_begin_of_idle {i : Instr} {s : State} (hb : begins i = true) (h : s.regs.ph = .idle) :
    exec i s = .next (s.mapRegs (Regs.opened (beginArgs s.regs.ss i).1 (beginArgs s.regs.ss i).2.1
      (beginArgs s.regs.ss i).2.2)) := by
  rw [exec_begin i s hb, beginTx_of_idle _ _ _ _ h, State.mapRegs]

theorem exec_begin_of_open {i : Instr} {s : State} (hb : begins i = true) (h : s.regs.ph ≠ .idle) :
    exec i s = .next (s.mapRegs Regs.violation) := by
  rw [exec_begin i s hb, beginTx_of_open _ _ _ _ h, State.mapRegs]

/-- Settles O23: the six begin commands are one template with the arguments of their rules. -/
theorem beginCommandsOpenTransaction : Obligations.BeginCommandsOpenTransaction := by
  refine fun d g f s => ⟨fun h => ⟨?_, ?_, ?_, ?_, ?_, ?_⟩, fun h => ⟨?_, ?_, ?_, ?_, ?_, ?_⟩⟩
  · exact exec_begin_of_idle (i := .wf d) rfl h
  · exact exec_begin_of_idle (i := .chk d) rfl h
  · exact exec_begin_of_idle (i := .msl d) rfl h
  · exact exec_begin_of_idle (i := .schk g f) rfl h
  · exact exec_begin_of_idle (i := .wfct d) rfl h
  · exact exec_begin_of_idle (i := .chkct d) rfl h
  · exact exec_begin_of_open (i := .wf d) rfl h
  · exact exec_begin_of_open (i := .chk d) rfl h
  · exact exec_begin_of_open (i := .msl d) rfl h
  · exact exec_begin_of_open (i := .schk g f) rfl h
  · exact exec_begin_of_open (i := .wfct d) rfl h
  · exact exec_begin_of_open (i := .chkct d) rfl h

end Sys2Proof.Machine
end

section
/-! `BYTE` (spec/41_sequencer.md R122, R126, R127) and the fast path (R135): the fast path forecasts the successor that
the ROM holds, so a `BYTE` beat does the same with it and without it, but for the ROM read that `NLK` counts. -/

namespace Sys2Proof.Machine

/-! ## The opcode and the stop condition -/

/-- R61: the instruction of a beat is the command of its opcode. -/
theorem decodeBeat_b12_of_opField {w : Wires} {op : Code} (h : opField w = op) :
    decodeBeat (.b12 w) = decodeCommand op (datField w) := by rw [decodeBeat, h]

/-- R126: while `MODE` is a begin opcode, the sequencer stops when the rule says so. -/
theorem stops_of_isBegin {m : Code} (h : isBegin m = true) (s' : Code) : stops m s' = some (stopNow m s') := by
  revert m s'; decide

theorem stops_of_not_isBegin {m : Code} (h : ¬ isBegin m = true) (s' : Code) : stops m s' = none := by
  rw [← stops_isSome m s'] at h
  simpa using h

theorem stopNow_of_stops {m s' : Code} {stop : Bool} (h : stops m s' = some stop) : stopNow m s' = stop := by
  have hm : isBegin m = true := by rw [← stops_isSome m s', h]; rfl
  exact Option.some.inj ((stops_of_isBegin hm s').symm.trans h)

/-- R126 by the modes it names: `WF`, `CHK` and `SCHK` stop on `ERR`, `MSL` on `ERR` and `ACC`. -/
theorem stopNow_iff_of_isBegin {m : Code} (h : isBegin m = true) (s' : Code) :
    stopNow m s' = true ↔
      ((m = opWF ∨ m = opCHK ∨ m = opSCHK) ∧ s' = ERR) ∨ (m = opMSL ∧ (s' = ERR ∨ s' = ACC)) := by
  revert m s'; decide

/-! ## The fast path -/

/-- R135: the four conditions under which the ROM is left unread. -/
theorem fastTaken_iff {w : Nat} (fast : Bool) (b : Byte) (r : Regs w) :
    fastTaken fast b r = true ↔
      fast = true ∧ r.fsm = ACC ∧ b.getLsbD 7 = false ∧ r.mode.getLsbD 3 = false := by
  simp [fastTaken, highBitClear, and_assoc]

theorem toNat_lt_of_highBitClear {b : Byte} (h : b.getLsbD 7 = false) : b.toNat < 128 := by
  revert b; decide

theorem mode_toNat_lt_of_bit3Clear {m : Code} (h : m.getLsbD 3 = false) : m.toNat < 8 := by
  revert m; decide

/-- R92: a byte with its high bit clear leaves the FSM in `ACC`. -/
theorem delta_ACC_of_highBitClear {b : Byte} (h : b.getLsbD 7 = false) : delta ACC b = ACC := by
  rw [delta_ACC]; revert b; decide

/-- The fast path forecasts the field that the ROM holds. -/
theorem successor_romRead {w : Nat} (fast : Bool) (b : Byte) (r : Regs w) :
    r.successor fast (romRead b) b = delta r.fsm b := by
  unfold Regs.successor
  split
  · next hfast =>
    obtain ⟨-, hacc, hbit, -⟩ := (fastTaken_iff fast b r).mp hfast
    rw [hacc, delta_ACC_of_highBitClear hbit]
  · rfl

/-! ## The beat in `RUN` -/

/-- R122 for either value of `FASTPATH`: only whether the ROM was read depends on it. -/
theorem byteBeat_romRead_of_run {w : Nat} (fast : Bool) (b : Byte) {r : Regs w} (hp : r.ph = .run)
    (hm : isBegin r.mode = true) :
    r.byteBeat fast (romRead b) b =
      .ok (r.consumed (delta r.fsm b) (!fastTaken fast b r) (stopNow r.mode (delta r.fsm b))) := by
  have hs := stops_of_isBegin hm (r.successor fast (romRead b) b)
  rw [byteBeat_of_run fast (romRead b) b r hp _ hs, successor_romRead]

theorem byteBeat_of_run_of_not_isBegin {w : Nat} (fast : Bool) (row : Row) (b : Byte) {r : Regs w} (hp : r.ph = .run)
    (hm : ¬ isBegin r.mode = true) : r.byteBeat fast row b = .error .modeNotBegin := by
  simp [Regs.byteBeat, hp, stops_of_not_isBegin hm]

/-- Without a skipped read `FASTPATH` makes no difference. -/
theorem byteBeat_of_not_fastTaken {w : Nat} (row : Row) {b : Byte} {r : Regs w} (h : fastTaken true b r = false) :
    r.byteBeat true row b = r.byteBeat false row b := by
  have hsucc : r.successor true row b = r.successor false row b := by
    rw [Regs.successor, h, successor_false, if_neg Bool.false_ne_true]
  unfold Regs.byteBeat
  rw [hsucc, h, fastTaken_false]

/-- The registers of a byte consumed in a transaction, with the phase and the count of R122, R126 and R135 written out. -/
theorem consumed_eq {w : Nat} (fast : Bool) (b : Byte) {r : Regs w} (hp : r.ph = .run) (hm : isBegin r.mode = true) :
    r.consumed (delta r.fsm b) (!fastTaken fast b r) (stopNow r.mode (delta r.fsm b)) = { r with
      fsm := delta r.fsm b
      pos := r.pos + 1
      la := if delta r.fsm b = ACC then r.pos + 1 else r.la
      ph :=
        if (r.mode = opWF ∨ r.mode = opCHK ∨ r.mode = opSCHK) ∧ delta r.fsm b = ERR then .stop
        else if r.mode = opMSL ∧ (delta r.fsm b = ERR ∨ delta r.fsm b = ACC) then .stop
        else .run
      nlk :=
        if fast = true ∧ r.fsm = ACC ∧ b.getLsbD 7 = false ∧ r.mode.getLsbD 3 = false then r.nlk
        else r.nlk + 1 } := by
  have hstop := stopNow_iff_of_isBegin hm (delta r.fsm b)
  simp only [← ite_or, ← hstop, ← fastTaken_iff fast b r]
  cases fastTaken fast b r <;> simp [Regs.consumed, hp]

/-! ## The obligations -/

theorem exec_data_of_idle {i : Instr} {s : State} (hd : isData i = true) (h : s.regs.ph = .idle) :
    exec i s = .next (s.mapRegs Regs.violation) := by
  obtain ⟨b, hb⟩ := exec_data i s hd
  rw [hb, byteBeat_of_idle _ _ _ _ h, outcome_ok, State.mapRegs]

theorem exec_data_of_stop {i : Instr} {s : State} (hd : isData i = true) (h : s.regs.ph = .stop) :
    exec i s = .next s := by
  obtain ⟨b, hb⟩ := exec_data i s hd
  rw [hb, byteBeat_of_stop _ _ _ _ h, outcome_ok, withRegs_self]

theorem exec_byte_of_run {b : Byte} {s : State} (hp : s.regs.ph = .run) (hm : isBegin s.regs.mode = true) :
    exec (.byte b) s = .next (s.mapRegs fun r =>
      r.consumed (delta r.fsm b) (!fastTaken Config.fastpath b r) (stopNow r.mode (delta r.fsm b))) :=
  congrArg s.outcome (byteBeat_romRead_of_run Config.fastpath b hp hm)

/-- Settles O29: a data instruction is a `BYTE` beat, which `STOP` discards and `IDLE` makes a violation. -/
theorem byteOutsideRunIsNotConsumed : Obligations.ByteOutsideRunIsNotConsumed :=
  fun _ _ hd => ⟨exec_data_of_stop hd, exec_data_of_idle hd⟩

/-- Settles O28: `BYTE` phase by phase; in `RUN` for either value of `FASTPATH`. -/
theorem byteStepsFsm : Obligations.ByteStepsFsm := by
  refine ⟨fun w h => decodeBeat_b12_of_opField h, fun b s => ⟨?_, ?_, fun hp hm => ?_⟩⟩
  · exact exec_data_of_idle (i := .byte b) rfl
  · exact exec_data_of_stop (i := .byte b) rfl
  · rw [exec_byte_of_run hp hm, State.mapRegs, consumed_eq Config.fastpath b hp hm]
    rfl

/-- Settles O39: the two values of `FASTPATH` compute the same successor, and the read is skipped only when R135 says. -/
theorem fastPathIsTransparent : Obligations.FastPathIsTransparent := by
  refine fun w b r => ⟨?_, fun hbit => ?_, fun x hp hx => ?_⟩
  · cases hp : r.ph with
    | idle => rw [byteBeat_of_idle _ _ _ _ hp, byteBeat_of_idle _ _ _ _ hp]
    | stop => rw [byteBeat_of_stop _ _ _ _ hp, byteBeat_of_stop _ _ _ _ hp]
    | run =>
      by_cases hm : isBegin r.mode = true
      · -- Only the count depends on whether the ROM was read, and the statement leaves it out.
        rw [byteBeat_romRead_of_run true b hp hm, byteBeat_romRead_of_run false b hp hm]
        rfl
      · rw [byteBeat_of_run_of_not_isBegin true _ b hp hm, byteBeat_of_run_of_not_isBegin false _ b hp hm]
  · have hslow : fastTaken true b r = false := by simp [fastTaken, hbit]
    exact byteBeat_of_not_fastTaken _ hslow
  · obtain ⟨hidle, -⟩ | ⟨hstop, -⟩ | ⟨-, stop, -, rfl⟩ := byteBeat_cases hx
    · exact absurd (hp.symm.trans hidle) (by decide)
    · exact absurd (hp.symm.trans hstop) (by decide)
    · cases hfast : fastTaken true b r with
      | false => exact ⟨.inr (by simp), fun h => by simp at h⟩
      | true =>
        obtain ⟨-, hacc, hbyte, hmode⟩ := (fastTaken_iff true b r).mp hfast
        exact ⟨.inl (by simp), fun _ => ⟨hacc, toNat_lt_of_highBitClear hbyte, mode_toNat_lt_of_bit3Clear hmode⟩⟩

end Sys2Proof.Machine
end

section
/-! `END` (spec/41_sequencer.md R128): the result of each mode, and the registers it leaves. -/

namespace Sys2Proof.Machine

/-! ## The result by mode -/

theorem endResult_of_wf {w : Nat} {r : Regs w} (h : r.mode = opWF ∨ r.mode = opWFCT) :
    endResult r = some (resultWf r) := if_pos h

theorem endResult_of_chk {w : Nat} {r : Regs w} (h : r.mode = opCHK ∨ r.mode = opCHKCT) :
    endResult r = some (resultChk r) := by
  rcases h with h | h <;> simp [endResult, h]

theorem endResult_of_msl {w : Nat} {r : Regs w} (h : r.mode = opMSL) : endResult r = some (resultMsl r) := by
  simp [endResult, h]

theorem endResult_of_schk {w : Nat} {r : Regs w} (h : r.mode = opSCHK) : endResult r = some (resultSchk r) := by
  simp [endResult, h]

/-! ## The registers it leaves -/

theorem closed_resultChk {w : Nat} (r : Regs w) :
    r.closed (resultChk r) = { r with
      rErr := decide (r.fsm ≠ ACC), rLen := if r.fsm = ACC then r.pos else r.la, rDone := true, ph := .idle } := by
  unfold resultChk
  split
  · next hacc => rw [decide_eq_false (not_not.mpr hacc)]; rfl
  · next hacc => rw [decide_eq_true hacc]; rfl

/-- R7: the larger of an offset and 1, as a number; at width 0 every offset is 0. -/
theorem maxU_one {w : Nat} (a : BitVec w) : maxU a 1 = BitVec.ofNat w (max a.toNat 1) := by
  rcases Nat.eq_zero_or_pos a.toNat with h | h
  · obtain rfl : a = 0 := BitVec.eq_of_toNat_eq (by simpa using h)
    cases w with
    | zero => exact Subsingleton.elim _ _
    | succ n => simp [maxU, BitVec.lt_def]
  · have hone : (1 : BitVec w).toNat ≤ 1 := by simpa using Nat.mod_le 1 (2 ^ w)
    have hlt : ¬ a < 1 := by rw [BitVec.lt_def]; omega
    rw [maxU, if_neg hlt, max_eq_left h, BitVec.ofNat_toNat, BitVec.setWidth_eq]

theorem closed_resultMsl {w : Nat} (r : Regs w) :
    r.closed (resultMsl r) = { r with
      rErr := false
      rLen := if r.fsm = ERR then BitVec.ofNat w (max (r.pos - 1).toNat 1) else r.pos
      rDone := true
      ph := .idle } := by
  rw [← maxU_one]
  rfl

theorem closed_resultSchk {w : Nat} (r : Regs w) :
    r.closed (resultSchk r) =
      if r.pos = 0 then { r with rErr := false, rLen := 0, rDone := true, ph := .idle }
      else if r.fsm = ERR then { r with rErr := true, rLen := r.la, ss := ACC, rDone := true, ph := .idle }
      else if r.fsm = ACC then { r with rErr := false, rLen := r.pos, ss := ACC, rDone := true, ph := .idle }
      else if r.fin = true then { r with rErr := true, rLen := r.la, ss := ACC, rDone := true, ph := .idle }
      else { r with rErr := false, rLen := r.la, ss := r.fsm, rDone := true, ph := .idle } := by
  simp only [resultSchk, apply_ite (fun res => r.closed res)]
  rfl

/-! ## The instruction -/

theorem exec_endTx_of_idle (d : Byte) {s : State} (h : s.regs.ph = .idle) :
    exec (.endTx d) s = .next (s.mapRegs Regs.violation) :=
  congrArg s.outcome (endBeat_of_idle s.regs h)

theorem exec_endTx_of_open (d : Byte) {s : State} (h : s.regs.ph ≠ .idle) {res : EndResult s.lenw}
    (hr : endResult s.regs = some res) : exec (.endTx d) s = .next (s.withRegs (s.regs.closed res)) :=
  congrArg s.outcome (endBeat_of_open s.regs h res hr)

/-- Settles O33: each mode has its arm of the result, and `END` writes that arm's values and nothing else. -/
theorem endWritesResultByMode : Obligations.EndWritesResultByMode := by
  refine ⟨fun w h => decodeBeat_b12_of_opField h, fun d s => ⟨exec_endTx_of_idle d, fun h => ⟨?_, ?_, ?_, ?_⟩⟩⟩
  · exact fun hm => exec_endTx_of_open d h (endResult_of_wf hm)
  · intro hm
    rw [exec_endTx_of_open d h (endResult_of_chk hm), closed_resultChk]
    rfl
  · intro hm
    rw [exec_endTx_of_open d h (endResult_of_msl hm), closed_resultMsl]
    rfl
  · intro hm
    rw [exec_endTx_of_open d h (endResult_of_schk hm), closed_resultSchk]
    rfl

end Sys2Proof.Machine
end

section
/-! The phase table (spec/41_sequencer.md R129). -/

namespace Sys2Proof.Machine

/-! ## Which instructions are violations (R227) -/

theorem begins_eq_false_of_violation {i : Instr} (h : isViolation i .idle = true) : begins i = false := by
  cases i with
  | wf | chk | msl | schk | wfct | chkct => cases h
  | _ => rfl

theorem isData_eq_false_of_violation {i : Instr} {ph : Phase} (h : isViolation i ph = true) (hp : ph ≠ .idle) :
    isData i = false := by
  cases i with
  | byte | ascii | contA | contB | contC | badC0 | lead2 | lead3E0 | lead3 | lead3ED | lead4F0 | lead4 | lead4F4
  | badF5 => exact absurd (of_decide_eq_true h) hp
  | _ => rfl

theorem ends_eq_false_of_violation {i : Instr} {ph : Phase} (h : isViolation i ph = true) (hp : ph ≠ .idle) :
    ends i = false := by
  cases i with
  | endTx => exact absurd (of_decide_eq_true h) hp
  | _ => rfl

theorem ends_eq_false_of_isData {i : Instr} (h : isData i = true) : ends i = false := by
  cases i with
  | endTx => cases h
  | _ => rfl

/-! ## The table -/

/-- A violation leaves the phase where it was. -/
theorem phaseAfter_of_violation {i : Instr} {ph : Phase} (h : isViolation i ph = true) (m s' : Code) :
    phaseAfter i ph m s' = ph := by
  cases ph with
  | idle => simp [phaseAfter, begins_eq_false_of_violation h]
  | run => simp [phaseAfter, isData_eq_false_of_violation h nofun, ends_eq_false_of_violation h nofun]
  | stop => simp [phaseAfter, ends_eq_false_of_violation h nofun]

/-- R129 on the registers: what an instruction does to them takes `PH` where the table says. -/
theorem Regs.Steps.ph_eq {w : Nat} {i : Instr} {r r' : Regs w} (h : r.Steps i r') :
    r'.ph = phaseAfter i r.ph r.mode r'.fsm := by
  obtain ⟨hv, rfl⟩ | ⟨-, ⟨hb, hp, rfl⟩ | ⟨⟨d, rfl⟩, hp, rfl⟩ | ⟨hd, hp, stop, hs, rfl⟩ | ⟨hd, hp, rfl⟩ |
    ⟨⟨d, rfl⟩, hp, res, -, rfl⟩ | ⟨⟨d, rfl⟩, rfl⟩⟩ := h
  · rw [phaseAfter_of_violation hv, violation_ph]
  · simp [phaseAfter, hp, hb]
  · simp [phaseAfter, hp, begins]
  · simp [phaseAfter, hp, hd, stopNow_of_stops hs]
  · simp [phaseAfter, hp, ends_eq_false_of_isData hd]
  · cases hph : r.ph with
    | idle => exact absurd hph hp
    | run => rfl
    | stop => rfl
  · cases hph : r'.ph with
    | idle => rfl
    | run => rfl
    | stop => rfl

/-- Settles O35, by what an instruction can do to the registers. -/
theorem phasesFollowTable : Obligations.PhasesFollowTable := by
  intro i s t h
  obtain ⟨r, rfl, hr⟩ := exec_cases h
  exact hr.ph_eq

end Sys2Proof.Machine
end

section
/-! `NOP` (spec/41_sequencer.md R120). What a cycle does never depends on the cycles still to come, so a run can be cut
after any of them, and a `NOP` beat there changes nothing. -/

namespace Sys2Proof.Machine

/-! ## Outcomes in sequence -/

/-- Going on from the next state, if there is one. -/
def thenFrom (o : Host.Outcome State Fault Refusal) (k : State → Host.Outcome State Fault Refusal) :
    Host.Outcome State Fault Refusal :=
  match o with
  | .next t => k t
  | .fault f => .fault f
  | .refused r => .refused r

/-- A run is its first step and the run from there. -/
theorem run_succ (n : Nat) (s : State) :
    Sys2Proof.core.run (n + 1) s = thenFrom (step s) (Sys2Proof.core.run n) := by
  simp only [Host.Core.run]
  change _ = thenFrom (Sys2Proof.core.step s) (Sys2Proof.core.run n)
  cases Sys2Proof.core.step s with
  | next t => rfl
  | fault f => rfl
  | refused r => rfl

/-! ## The cycles still to come -/

theorem outcome_setInput (s : State) (l : List PortIn) (o : Except Fault (Regs s.lenw)) :
    State.outcome { s with input := l } o = thenFrom (s.outcome o) (fun t => .next { t with input := l }) := by
  cases o with
  | ok r => rfl
  | error f => rfl

/-- No instruction reads the cycles still to come, or changes them. -/
theorem exec_setInput (i : Instr) (s : State) (l : List PortIn) :
    exec i { s with input := l } = thenFrom (exec i s) (fun t => .next { t with input := l }) := by
  cases i with
  | byte | ascii | contA | contB | contC | badC0 | lead2 | lead3E0 | lead3 | lead3ED | lead4F0 | lead4 | lead4F4
  | badF5 | endTx => exact outcome_setInput s l _
  | _ => rfl

theorem cycle_setInput (c : PortIn) (s : State) (l : List PortIn) :
    cycle c { s with input := l } = thenFrom (cycle c s) (fun t => .next { t with input := l }) := by
  unfold cycle
  split
  · rfl
  · split
    · exact exec_setInput _ s l
    · rfl

/-- A run from a driven cycle is that cycle's effect on the registers, then the run over the cycles after it. -/
theorem run_cons (n : Nat) (s : State) (c : PortIn) (l : List PortIn) :
    Sys2Proof.core.run (n + 1) { s with input := c :: l }
      = thenFrom (cycle c s) (fun t => Sys2Proof.core.run n { t with input := l }) := by
  have hstep : step { s with input := c :: l } = thenFrom (cycle c s) (fun t => .next { t with input := l }) :=
    cycle_setInput c s l
  rw [run_succ, hstep]
  cases cycle c s with
  | next t => rfl
  | fault f => rfl
  | refused r => rfl

/-! ## A `NOP` beat -/

theorem decodeBeat_of_nopOpcode {w : Wires} (h : opField w = 0x0) : decodeBeat (.b12 w) = .nop (datField w) :=
  decodeBeat_b12_of_opField h

theorem exec_nop (d : Byte) (s : State) : exec (.nop d) s = .next s := rfl

theorem cycle_nop (d : Byte) (s : State) : cycle (presentInstr (.nop d)) s = .next s := by
  have hdec : decodeBeat (encode (.nop d)) = .nop (datField (0x0#4 ++ d)) :=
    decodeBeat_of_nopOpcode (Laws.WiresCarryOpcode.opField_append 0x0 d)
  calc cycle (presentInstr (.nop d)) s
      = exec (decodeBeat (encode (.nop d))) s := rfl
    _ = .next s := by rw [hdec, exec_nop]

/-- R120: a run with a `NOP` beat put in after `xs` ends as the run without it, by induction on `xs`. -/
theorem run_insert_nop (d : Byte) (xs ys : List PortIn) (s : State) :
    Sys2Proof.core.run (xs.length + ys.length + 1) { s with input := xs ++ presentInstr (.nop d) :: ys }
      = Sys2Proof.core.run (xs.length + ys.length) { s with input := xs ++ ys } := by
  induction xs generalizing s with
  | nil => rw [List.nil_append, run_cons, cycle_nop]; rfl
  | cons c xs ih =>
    rw [List.length_cons, Nat.add_right_comm xs.length, List.cons_append, List.cons_append, run_cons, run_cons]
    exact congrArg (thenFrom (cycle c s)) (funext ih)

/-- Settles O22: the opcode, the instruction, and the run by `run_insert_nop`. -/
theorem nopChangesNothingAnywhere : Obligations.NopChangesNothingAnywhere :=
  ⟨fun _ => decodeBeat_of_nopOpcode, exec_nop, fun d s xs ys => run_insert_nop d xs ys s⟩

end Sys2Proof.Machine
end

section
/-! The validator (spec/42_single_shot.md R152) without its search for the first error: `ERR` is absorbing and no Accept
point follows it, so the verdict and the length can be read after the last byte. -/

namespace Sys2Proof.Machine

/-- R91: `ERR` is absorbing. -/
theorem runDelta_ERR (b : List Byte) : runDelta ERR b = ERR := by
  induction b with
  | nil => rfl
  | cons x xs ih => rw [runDelta_cons, delta_ERR, ih]

theorem stateAt_add (s0 : Code) (b : List Byte) (k n : Nat) :
    stateAt s0 b (k + n) = runDelta (stateAt s0 b k) ((b.drop k).take n) := by
  rw [stateAt, List.take_add, runDelta_append, stateAt]

theorem stateAt_add_of_error {s0 : Code} {b : List Byte} {k : Nat} (h : stateAt s0 b k = ERR) (n : Nat) :
    stateAt s0 b (k + n) = ERR := by rw [stateAt_add, h, runDelta_ERR]

/-- No Accept point follows an error. -/
theorem lastAccept_add_of_error {s0 : Code} {b : List Byte} {k : Nat} (h : stateAt s0 b k = ERR) (n : Nat) :
    lastAccept s0 b (k + n) = lastAccept s0 b k := by
  induction n with
  | zero => rfl
  | succ n ih =>
    have herr : stateAt s0 b (k + n + 1) = ERR := stateAt_add_of_error h (n + 1)
    have hne : stateAt s0 b (k + n + 1) ≠ ACC := by rw [herr]; decide
    rw [← Nat.add_assoc, lastAccept_succ_of_ne hne, ih]

theorem firstError_spec {s0 : Code} {b : List Byte} {k : Nat} (h : firstError s0 b = some k) :
    k ≤ b.length ∧ stateAt s0 b k = ERR :=
  ⟨Nat.le_of_lt_succ (List.mem_range.mp (List.mem_of_find?_eq_some h)), by simpa using List.find?_some h⟩

/-- R152 read at the end of the buffer. -/
theorem validate_eq (b : List Byte) :
    validate b = (decide (stateAt ACC b b.length = ACC), lastAccept ACC b b.length) := by
  unfold validate
  split
  · next k hk =>
    obtain ⟨hle, herr⟩ := firstError_spec hk
    obtain ⟨n, hn⟩ := Nat.exists_eq_add_of_le hle
    rw [hn, stateAt_add_of_error herr, lastAccept_add_of_error herr]
    rfl
  · split
    · next hacc => rw [hacc, lastAccept_of_accept hacc]; rfl
    · next hacc => rw [decide_eq_false hacc]

end Sys2Proof.Machine
end

section
/-! The loop of `scan` (spec/41_sequencer.md R131) when it breaks on nothing but `ERR`, as in every mode but `MSL` (R126). -/

namespace Sys2Proof.Machine

/-- One turn of the loop, where it stands after the first `k` bytes. -/
theorem scanFrom_stateAt (stop : Code → Bool) (s0 : Code) (b : List Byte) {k : Nat} (hk : k < b.length) :
    scanFrom stop (stateAt s0 b k) k (lastAccept s0 b k) (b.drop k) =
      if stop (stateAt s0 b (k + 1)) then ⟨stateAt s0 b (k + 1), k + 1, lastAccept s0 b (k + 1), true⟩
      else scanFrom stop (stateAt s0 b (k + 1)) (k + 1) (lastAccept s0 b (k + 1)) (b.drop (k + 1)) := by
  rw [List.drop_eq_getElem_cons hk, scanFrom, ← stateAt_succ s0 b k hk]
  rfl

/-- A loop that breaks on nothing but `ERR` ends with the state and the last Accept point of the whole buffer, and only
after `ERR` with bytes unread. -/
theorem scanFrom_of_stop_error {stop : Code → Bool} (hstop : ∀ s, stop s = true → s = ERR) (s0 : Code) (b : List Byte)
    {k : Nat} (hk : k ≤ b.length) :
    ∃ x, scanFrom stop (stateAt s0 b k) k (lastAccept s0 b k) (b.drop k) = x ∧
      x.fsm = stateAt s0 b b.length ∧ x.la = lastAccept s0 b b.length ∧ (x.fsm ≠ ERR → x.pos = b.length) := by
  induction hk using Nat.decreasingInduction with
  | self => rw [List.drop_length]; exact ⟨_, rfl, rfl, rfl, fun _ => rfl⟩
  | of_succ k hk ih =>
    rw [scanFrom_stateAt stop s0 b hk]
    by_cases hs : stop (stateAt s0 b (k + 1)) = true
    · have herr : stateAt s0 b (k + 1) = ERR := hstop _ hs
      obtain ⟨n, hn⟩ := Nat.exists_eq_add_of_le (Nat.succ_le_of_lt hk)
      rw [if_pos hs, hn, stateAt_add_of_error herr, lastAccept_add_of_error herr]
      exact ⟨_, rfl, herr, rfl, fun h => absurd herr h⟩
    · rw [if_neg hs]; exact ih

theorem scan_of_stop_error {stop : Code → Bool} (hstop : ∀ s, stop s = true → s = ERR) (s0 : Code) (b : List Byte) :
    (scan s0 b stop).fsm = stateAt s0 b b.length ∧ (scan s0 b stop).la = lastAccept s0 b b.length ∧
      ((scan s0 b stop).fsm ≠ ERR → (scan s0 b stop).pos = b.length) := by
  obtain ⟨_, rfl, h⟩ := scanFrom_of_stop_error hstop s0 b (Nat.zero_le b.length)
  exact h

end Sys2Proof.Machine
end

section
/-! The `BYTE` beats of a transaction fold the FSM over the bytes (spec/41_sequencer.md R131), at every width and for
either value of `FASTPATH`. -/

namespace Sys2Proof.Machine

/-- The registers that a loop of `scan` and `n` ROM reads leave in an open transaction; offsets are modulo `2^LENW`. -/
def Regs.scanned {w : Nat} (x : Scan) (n : Nat) (r : Regs w) : Regs w :=
  { r with
    fsm := x.fsm
    pos := BitVec.ofNat w x.pos
    la := BitVec.ofNat w x.la
    ph := if x.broke then .stop else .run
    nlk := n }

section
variable {w : Nat} (x : Scan) (n : Nat) (r : Regs w)

@[simp] theorem scanned_fsm : (r.scanned x n).fsm = x.fsm := rfl
@[simp] theorem scanned_ss : (r.scanned x n).ss = r.ss := rfl
@[simp] theorem scanned_pos : (r.scanned x n).pos = BitVec.ofNat w x.pos := rfl
@[simp] theorem scanned_la : (r.scanned x n).la = BitVec.ofNat w x.la := rfl
@[simp] theorem scanned_ph : (r.scanned x n).ph = if x.broke then .stop else .run := rfl
@[simp] theorem scanned_mode : (r.scanned x n).mode = r.mode := rfl
@[simp] theorem scanned_fin : (r.scanned x n).fin = r.fin := rfl
@[simp] theorem scanned_rDone : (r.scanned x n).rDone = r.rDone := rfl
@[simp] theorem scanned_rErr : (r.scanned x n).rErr = r.rErr := rfl
@[simp] theorem scanned_rLen : (r.scanned x n).rLen = r.rLen := rfl
@[simp] theorem scanned_perr : (r.scanned x n).perr = r.perr := rfl
@[simp] theorem scanned_nlk : (r.scanned x n).nlk = n := rfl

theorem scanned_ph_ne_idle : (r.scanned x n).ph ≠ .idle := by
  rw [scanned_ph]; split <;> decide

end

theorem scanned_self {w : Nat} {x : Scan} {r : Regs w} (hfsm : r.fsm = x.fsm) (hpos : r.pos = BitVec.ofNat w x.pos)
    (hla : r.la = BitVec.ofNat w x.la) (hph : r.ph = if x.broke then .stop else .run) : r.scanned x r.nlk = r := by
  rw [Regs.scanned, ← hfsm, ← hpos, ← hla, ← hph]

/-- R135: with `FASTPATH` 0 or `MODE[3]` = 1 no read is skipped. -/
theorem fastTaken_eq_false {w : Nat} {fast : Bool} (b : Byte) {r : Regs w}
    (h : fast = false ∨ r.mode.getLsbD 3 = true) : fastTaken fast b r = false := by
  rcases h with h | h <;> simp [fastTaken, h]

theorem feed_of_stop {w : Nat} (fast : Bool) (b : List Byte) {r : Regs w} (h : r.ph = .stop) :
    Regs.feed fast b r = .ok r := by
  induction b with
  | nil => rfl
  | cons x xs ih => rw [Regs.feed, byteBeat_of_stop _ _ _ _ h]; exact ih

/-- R131 from the middle of a transaction, at any offsets: what is left of the loop is what is left to feed, and the ROM is
read once a byte consumed unless R135 allows a read to be skipped. -/
theorem feed_of_run {w : Nat} (fast : Bool) (b : List Byte) {r : Regs w} (hp : r.ph = .run)
    (hm : isBegin r.mode = true) {p l : Nat} (hpos : r.pos = BitVec.ofNat w p) (hla : r.la = BitVec.ofNat w l) :
    ∃ n, Regs.feed fast b r = .ok (r.scanned (scanFrom (stopNow r.mode) r.fsm p l b) n) ∧
      (fast = false ∨ r.mode.getLsbD 3 = true →
        n + p = r.nlk + (scanFrom (stopNow r.mode) r.fsm p l b).pos) := by
  induction b generalizing r p l with
  | nil => exact ⟨r.nlk, congrArg Except.ok (scanned_self rfl hpos hla hp).symm, fun _ => rfl⟩
  | cons c cs ih =>
    have hbeat := byteBeat_romRead_of_run fast c hp hm
    set r' := r.consumed (delta r.fsm c) (!fastTaken fast c r) (stopNow r.mode (delta r.fsm c)) with hr'
    have hpos' : r'.pos = BitVec.ofNat w (p + 1) := by
      rw [hr', consumed_pos, hpos, BitVec.ofNat_add]; rfl
    have hla' : r'.la = BitVec.ofNat w (if delta r.fsm c = ACC then p + 1 else l) := by
      rw [apply_ite (BitVec.ofNat w), ← hpos', ← hla]; rfl
    have hnlk : fast = false ∨ r.mode.getLsbD 3 = true → r'.nlk = r.nlk + 1 := by
      intro h
      rw [hr', consumed_nlk, fastTaken_eq_false c h]; rfl
    rw [Regs.feed, hbeat, scanFrom]
    by_cases hs : stopNow r.mode (delta r.fsm c) = true
    · rw [if_pos hs]
      have hph : r'.ph = .stop := by rw [hr', consumed_ph, if_pos hs]
      refine ⟨r'.nlk, (feed_of_stop fast cs hph).trans (congrArg Except.ok ?_), fun h => ?_⟩
      · -- What the byte wrote, the scan writes too, so that `r'` scanned is `r` scanned.
        exact (scanned_self rfl hpos' hla' hph).symm
      · rw [hnlk h]; exact Nat.add_right_comm r.nlk 1 p
    · rw [if_neg hs]
      have hph : r'.ph = .run := by rw [hr', consumed_ph, if_neg hs, hp]
      obtain ⟨n, hfeed, hn⟩ := ih hph hm hpos' hla'
      refine ⟨n, hfeed, fun h => Nat.succ.inj ?_⟩
      calc n + (p + 1) = r'.nlk + _ := hn h
        _ = (r.nlk + _) + 1 := by rw [hnlk h, Nat.add_right_comm]; rfl

/-- R131: the beats of a transaction compute `scan` from the state the begin command sets. -/
theorem feed_opened {w : Nat} (fast : Bool) (b : List Byte) {m : Code} (hm : isBegin m = true) (s0 : Code) (f : Bool)
    (r : Regs w) :
    ∃ n, Regs.feed fast b (r.opened m s0 f) = .ok ((r.opened m s0 f).scanned (scan s0 b (stopNow m)) n) ∧
      (fast = false ∨ m.getLsbD 3 = true → n = (scan s0 b (stopNow m)).pos) := by
  obtain ⟨n, hfeed, hn⟩ := feed_of_run fast b (r := r.opened m s0 f) (p := 0) (l := 0) rfl hm rfl rfl
  exact ⟨n, hfeed, fun h => (hn h).trans (Nat.zero_add _)⟩

end Sys2Proof.Machine
end

section
/-! A transaction presented beat by beat (spec/30_encoding.md R76): in `IDLE`, it is its bytes fed to the registers that the
begin command opens, then `END`. -/

namespace Sys2Proof.Machine

theorem datField_append (op : Code) (d : Byte) : datField (op ++ d) = d := by
  rw [datField]; revert op d; decide

/-- R60, R61: the beat `{op, dat}` stands for the command of `op` with operand `dat`. -/
theorem decodeBeat_append (op : Code) (d : Byte) : decodeBeat (.b12 (op ++ d)) = decodeCommand op d := by
  rw [decodeBeat_b12_of_opField (Laws.WiresCarryOpcode.opField_append op d), datField_append]

theorem cycle_presentInstr {i : Instr} (hi : decodeBeat (encode i) = i) (s : State) :
    cycle (presentInstr i) s = exec i s := congrArg (exec · s) hi

theorem cycle_byte (c : Byte) (s : State) :
    cycle (presentInstr (.byte c)) s = s.outcome (s.regs.byteBeat Config.fastpath (romRead c) c) :=
  cycle_presentInstr (i := .byte c) (decodeBeat_append 0x6 c) s

theorem cycle_endTx (d : Byte) (s : State) : cycle (presentInstr (.endTx d)) s = s.outcome s.regs.endBeat :=
  cycle_presentInstr (i := .endTx d) (decodeBeat_append 0x7 d) s

/-- A run over `BYTE` beats, when none faults. -/
theorem run_bytesInput {b : List Byte} {s : State} {r : Regs s.lenw}
    (h : Regs.feed Config.fastpath b s.regs = .ok r) (n : Nat) (l : List PortIn) :
    Sys2Proof.core.run (b.length + n) { s with input := bytesInput b ++ l } =
      Sys2Proof.core.run n { s with regs := r, input := l } := by
  induction b generalizing s with
  | nil => cases h; rw [List.length_nil, Nat.zero_add]; rfl
  | cons c cs ih =>
    have hcut : (c :: cs).length + n = (cs.length + n) + 1 := Nat.succ_add cs.length n
    rw [Regs.feed] at h
    rw [hcut, bytesInput, List.map_cons, List.cons_append, run_cons, cycle_byte]
    cases hb : s.regs.byteBeat Config.fastpath (romRead c) c with
    | error f => rw [hb] at h; cases h
    | ok r' => rw [hb] at h; exact ih (s := s.withRegs r') h

/-- A transaction opened in `IDLE`, when no byte faults: the outcome is that of `END` on the registers the bytes leave. -/
theorem runTx_of_idle {i : Instr} (hi : decodeBeat (encode i) = i) (hb : begins i = true) {b : List Byte} {s : State}
    (hp : s.regs.ph = .idle) {r : Regs s.lenw}
    (hfeed : Regs.feed Config.fastpath b (s.regs.opened (beginArgs s.regs.ss i).1 (beginArgs s.regs.ss i).2.1
      (beginArgs s.regs.ss i).2.2) = .ok r) :
    runTx i b s = State.outcome { s with input := [] } r.endBeat := by
  rw [runTx, txInput, run_cons, cycle_presentInstr hi, exec_begin_of_idle hb hp]
  refine (run_bytesInput (s := s.mapRegs _) hfeed 1 _).trans ?_
  refine (run_cons 0 { s with regs := r } _ []).trans ?_
  rw [cycle_endTx]
  cases r.endBeat with
  | ok u => rfl
  | error f => rfl

end Sys2Proof.Machine
end

section
/-! `CHK` and `WF` transactions (spec/42_single_shot.md R154). -/

namespace Sys2Proof.Machine

/-- After a begin command whose mode stops on nothing but `ERR`, the bytes of a buffer within the bound of R154 leave the
FSM's state and last Accept point of the whole buffer, and its length unless that state is `ERR`. -/
theorem feed_opened_of_stop_error {w : Nat} (fast : Bool) {m : Code} (hm : isBegin m = true)
    (hstop : ∀ s, stopNow m s = true → s = ERR) (s0 : Code) (f : Bool) (r : Regs w) {b : List Byte}
    (hlen : b.length ≤ 2 ^ w - 1) :
    ∃ t, Regs.feed fast b (r.opened m s0 f) = .ok t ∧ t.ph ≠ .idle ∧ t.mode = m ∧ t.ss = r.ss ∧ t.perr = r.perr ∧
      t.fsm = stateAt s0 b b.length ∧ t.la.toNat = lastAccept s0 b b.length ∧
      (t.fsm ≠ ERR → t.pos.toNat = b.length) := by
  obtain ⟨n, hfeed, -⟩ := feed_opened fast b hm s0 f r
  obtain ⟨hfsm, hla, hpos⟩ := scan_of_stop_error hstop s0 b
  have hfits {k : Nat} (hk : k ≤ b.length) : (BitVec.ofNat w k).toNat = k := by
    have hw := Nat.two_pow_pos w
    rw [BitVec.toNat_ofNat, Nat.mod_eq_of_lt (by omega)]
  refine ⟨_, hfeed, scanned_ph_ne_idle _ _ _, rfl, rfl, rfl, hfsm, ?_, fun hne => ?_⟩
  · rw [scanned_la, hla, hfits (lastAccept_le s0 b b.length)]
  · rw [scanned_pos, hpos hne, hfits le_rfl]

/-- R150, R151, R153: `S` is `ACC` after the last byte exactly for a well-formed buffer. -/
theorem error_clear_iff {b : List Byte} {s : Code} (h : s = stateAt ACC b b.length) :
    decide (s ≠ ACC) = false ↔ isWellFormed b = true := by
  rw [isWellFormed, validate_eq, ← h]; simp

/-- R151: the length that `END` reports after `CHK` is the one of `validate`. -/
theorem chkLength_toNat {w : Nat} {r : Regs w} {b : List Byte} (hfsm : r.fsm = stateAt ACC b b.length)
    (hla : r.la.toNat = lastAccept ACC b b.length) (hpos : r.fsm ≠ ERR → r.pos.toNat = b.length) :
    (if r.fsm = ACC then r.pos else r.la).toNat = (validate b).2 := by
  rw [validate_eq]
  split
  · next hacc =>
    have hne : r.fsm ≠ ERR := by rw [hacc]; decide
    rw [hpos hne, lastAccept_of_accept (hfsm.symm.trans hacc)]
  · exact hla

/-- Settles O41: the bytes leave the state and the last Accept point that `validate_eq` reads, and `END` reports them. -/
theorem singleShotAgreesWithValidate : Obligations.SingleShotAgreesWithValidate := by
  refine fun s b hidle hlen => ⟨?_, ?_⟩
  · obtain ⟨t, hfeed, hph, hmode, hss, hperr, hfsm, hla, hpos⟩ :=
      feed_opened_of_stop_error Config.fastpath (m := opCHK) rfl (by decide) ACC false s.regs hlen
    have hrun := runTx_of_idle (i := .chk 0) (decodeBeat_append 0x2 0) rfl hidle hfeed
    rw [endBeat_of_open t hph _ (endResult_of_chk (.inl hmode)), closed_resultChk] at hrun
    exact ⟨_, hrun, rfl, error_clear_iff hfsm, chkLength_toNat hfsm hla hpos, hss, hperr, rfl⟩
  · obtain ⟨t, hfeed, hph, hmode, hss, hperr, hfsm, -⟩ :=
      feed_opened_of_stop_error Config.fastpath (m := opWF) rfl (by decide) ACC false s.regs hlen
    have hrun := runTx_of_idle (i := .wf 0) (decodeBeat_append 0x1 0) rfl hidle hfeed
    rw [endBeat_of_open t hph _ (endResult_of_wf (.inl hmode))] at hrun
    exact ⟨_, hrun, rfl, error_clear_iff hfsm, rfl, hss, hperr, rfl⟩

end Sys2Proof.Machine
end

section
/-! Where the loop of `scan` (spec/41_sequencer.md R131) breaks, for any stop condition: after the first byte whose state
meets it, and otherwise not at all. -/

namespace Sys2Proof.Machine

/-- No state after the first `k` bytes meets the stop condition, so that the loop goes on past them. -/
def PassesBytes (stop : Code → Bool) (s0 : Code) (b : List Byte) (k : Nat) : Prop :=
  ∀ j < k, ¬ stop (stateAt s0 b (j + 1)) = true

section
variable {stop : Code → Bool} {s0 : Code} {b : List Byte} {k : Nat}

/-- Either one byte is the first to meet the stop condition, or none meets it. -/
theorem exists_first_stop_or_passes (stop : Code → Bool) (s0 : Code) (b : List Byte) :
    (∃ i < b.length, PassesBytes stop s0 b i ∧ stop (stateAt s0 b (i + 1)) = true) ∨
      PassesBytes stop s0 b b.length := by
  by_cases h : PassesBytes stop s0 b b.length
  · exact .inr h
  · have hex : ∃ i, i < b.length ∧ stop (stateAt s0 b (i + 1)) = true := by simpa [PassesBytes] using h
    obtain ⟨i, ⟨hi, hs⟩, hmin⟩ := Nat.findX hex
    exact .inl ⟨i, hi, fun j hj hj' => hmin j hj ⟨hj.trans hi, hj'⟩, hs⟩

theorem scan_eq_scanFrom (hk : k ≤ b.length) (h : PassesBytes stop s0 b k) :
    scan s0 b stop = scanFrom stop (stateAt s0 b k) k (lastAccept s0 b k) (b.drop k) := by
  induction k with
  | zero => rfl
  | succ k ih =>
    rw [ih (Nat.le_of_lt hk) (fun j hj => h j (Nat.lt_succ_of_lt hj)), scanFrom_stateAt stop s0 b hk,
      if_neg (h k (Nat.lt_succ_self k))]

theorem scan_of_first_stop (hk : k < b.length) (h : PassesBytes stop s0 b k)
    (hs : stop (stateAt s0 b (k + 1)) = true) :
    scan s0 b stop = ⟨stateAt s0 b (k + 1), k + 1, lastAccept s0 b (k + 1), true⟩ := by
  rw [scan_eq_scanFrom hk.le h, scanFrom_stateAt stop s0 b hk, if_pos hs]

theorem scan_of_passes (h : PassesBytes stop s0 b b.length) :
    scan s0 b stop = ⟨stateAt s0 b b.length, b.length, lastAccept s0 b b.length, false⟩ := by
  rw [scan_eq_scanFrom le_rfl h, List.drop_length]
  rfl

end

/-- Wherever the loop ends, it holds what the bytes consumed up to there give. -/
theorem scan_eq_stateAt (stop : Code → Bool) (s0 : Code) (b : List Byte) :
    ∃ k ≤ b.length, ∃ broke, scan s0 b stop = ⟨stateAt s0 b k, k, lastAccept s0 b k, broke⟩ := by
  rcases exists_first_stop_or_passes stop s0 b with ⟨i, hi, hpass, hs⟩ | hpass
  · exact ⟨i + 1, hi, true, scan_of_first_stop hi hpass hs⟩
  · exact ⟨b.length, le_rfl, false, scan_of_passes hpass⟩

end Sys2Proof.Machine
end

section
/-! The maximal subpart length (spec/43_classifier.md R167) is what `END` reports of the scan of an `MSL` transaction
(R168). -/

namespace Sys2Proof.Machine

/-! ## The function as a scan -/

/-- R126: `MSL` stops on the states that the search of R167 looks for. -/
theorem stopNow_opMSL (s : Code) : stopNow opMSL s = (decide (s = ACC) || decide (s = ERR)) := by
  revert s; decide

theorem stopNow_opMSL_iff (s : Code) : stopNow opMSL s = true ↔ s = ACC ∨ s = ERR := by
  rw [stopNow_opMSL, Bool.or_eq_true, decide_eq_true_iff, decide_eq_true_iff]

/-- The length `END` reports in `MSL` mode (R128), on the counters of `scan`. -/
def Scan.subpartLength (x : Scan) : Nat := if x.fsm = ERR then max (x.pos - 1) 1 else x.pos

theorem subpartLength_of_error {x : Scan} (h : x.fsm = ERR) : x.subpartLength = max (x.pos - 1) 1 := if_pos h

theorem subpartLength_of_ne {x : Scan} (h : x.fsm ≠ ERR) : x.subpartLength = x.pos := if_neg h

/-- R168, case by case: the byte that the search of R167 finds is the one at which the scan stops. -/
theorem msl_eq_scan (b : List Byte) : msl b = (scan ACC b (stopNow opMSL)).subpartLength := by
  unfold msl
  simp only [← stopNow_opMSL]
  split
  · next i hfound =>
    obtain ⟨hs, hi, hmin⟩ := List.find?_range_eq_some.mp hfound
    have hpass : PassesBytes (stopNow opMSL) ACC b i := fun j hj => by simpa using hmin j hj
    rw [scan_of_first_stop (List.mem_range.mp hi) hpass hs]
    rcases (stopNow_opMSL_iff _).mp hs with h | h
    · rw [if_pos h, subpartLength_of_ne (h.trans_ne (by decide))]
    · rw [if_neg (h.trans_ne (by decide)), subpartLength_of_error h, Nat.add_sub_cancel]
  · next hnone =>
    have hpass : PassesBytes (stopNow opMSL) ACC b b.length :=
      fun j hj => by simpa using List.find?_range_eq_none.mp hnone j hj
    have hne : stateAt ACC b b.length ≠ ERR := by
      cases hn : b.length with
      | zero => rw [stateAt_zero]; decide
      | succ n => exact fun h => hpass n (by omega) ((stopNow_opMSL_iff _).mpr (.inr h))
    rw [scan_of_passes hpass, subpartLength_of_ne hne]

/-! ## The transaction -/

/-- An offset within the bound of R168 is not wrapped. -/
theorem toNat_ofNat_of_le {w k : Nat} (h : k ≤ 2 ^ w - 1) : (BitVec.ofNat w k).toNat = k := by
  have hw := Nat.two_pow_pos w
  rw [BitVec.toNat_ofNat, Nat.mod_eq_of_lt (by omega)]

/-- The length `END` reports after `MSL`, as a number: an error comes after a byte, so `POS - 1` does not wrap. -/
theorem mslLength_toNat {w : Nat} {x : Scan} (hfit : x.pos ≤ 2 ^ w - 1) (herr : x.fsm = ERR → x.pos ≠ 0) :
    (if x.fsm = ERR then BitVec.ofNat w (max (BitVec.ofNat w x.pos - 1).toNat 1)
      else BitVec.ofNat w x.pos).toNat = x.subpartLength := by
  split
  · next h =>
    obtain ⟨n, hn⟩ := Nat.exists_eq_succ_of_ne_zero (herr h)
    have hprev : BitVec.ofNat w x.pos - 1 = BitVec.ofNat w n := by
      rw [hn, Nat.succ_eq_add_one, BitVec.ofNat_add]; exact BitVec.add_sub_cancel _ _
    rw [hprev, toNat_ofNat_of_le (k := n) (by omega), toNat_ofNat_of_le (by omega), subpartLength_of_error h, hn,
      Nat.succ_sub_one]
  · next h => rw [toNat_ofNat_of_le hfit, subpartLength_of_ne h]

/-- Settles O42: the bytes leave the counters of the `MSL` scan, and `END` reports the length that `msl_eq_scan` reads. -/
theorem classifierAgreesWithMsl : Obligations.ClassifierAgreesWithMsl := by
  intro s b hidle hlen
  obtain ⟨n, hfeed, -⟩ := feed_opened Config.fastpath b (m := opMSL) rfl ACC false s.regs
  have hrun := runTx_of_idle (i := .msl 0) (decodeBeat_append 0x3 0) rfl hidle hfeed
  rw [endBeat_of_open _ (scanned_ph_ne_idle _ _ _) _ (endResult_of_msl rfl), closed_resultMsl] at hrun
  refine ⟨_, hrun, rfl, rfl, ?_, rfl, rfl⟩
  obtain ⟨k, hk, broke, hscan⟩ := scan_eq_stateAt (stopNow opMSL) ACC b
  rw [msl_eq_scan, hscan]
  refine mslLength_toNat (x := ⟨stateAt ACC b k, k, lastAccept ACC b k, broke⟩) (hk.trans hlen) ?_
  rintro (herr : stateAt ACC b k = ERR) rfl
  exact absurd (herr.symm.trans (stateAt_zero ACC b)) (by decide)

end Sys2Proof.Machine
end

section
/-! The maximal subpart length by the shape of the buffer's start (spec/43_classifier.md R169, R170): the scan of an `MSL`
transaction followed byte by byte. -/

namespace Sys2Proof.Machine

/-! ## The scan, byte by byte -/

/-- The length that the `MSL` scan gives from state `s`, with `i` bytes consumed and none of them an Accept point. -/
def subpartFrom (s : Code) (i : Nat) (b : List Byte) : Nat := (scanFrom (stopNow opMSL) s i 0 b).subpartLength

theorem msl_eq_subpartFrom (b : List Byte) : msl b = subpartFrom ACC 0 b := msl_eq_scan b

theorem subpartFrom_nil {s : Code} (h : s ≠ ERR) (i : Nat) : subpartFrom s i [] = i := subpartLength_of_ne h

theorem subpartFrom_cons_of_accept {s : Code} {c : Byte} (h : delta s c = ACC) (i : Nat) (b : List Byte) :
    subpartFrom s i (c :: b) = i + 1 := by
  rw [subpartFrom, scanFrom, h]; rfl

theorem subpartFrom_cons_of_error {s : Code} {c : Byte} (h : delta s c = ERR) (i : Nat) (b : List Byte) :
    subpartFrom s i (c :: b) = max i 1 := by
  rw [subpartFrom, scanFrom, h]; rfl

theorem subpartFrom_cons_of_pending {s : Code} {c : Byte} (hacc : delta s c ≠ ACC) (herr : delta s c ≠ ERR) (i : Nat)
    (b : List Byte) : subpartFrom s i (c :: b) = subpartFrom (delta s c) (i + 1) b := by
  have hgo : ¬ stopNow opMSL (delta s c) = true := by rw [stopNow_opMSL_iff]; exact not_or.mpr ⟨hacc, herr⟩
  simp only [subpartFrom, scanFrom, if_neg hacc, if_neg hgo]

/-- A byte with one legal successor, `ACC`: the sequence is complete or broken here. -/
theorem subpartFrom_cons_of_last {s : Code} {c : Byte} {legal : Bool}
    (h : delta s c = if legal then ACC else ERR) {i : Nat} (hi : 1 ≤ i) (b : List Byte) :
    subpartFrom s i (c :: b) = if legal then i + 1 else i := by
  cases legal with
  | true => exact subpartFrom_cons_of_accept h i b
  | false => exact (subpartFrom_cons_of_error h i b).trans (max_eq_left hi)

/-- A byte with one legal successor, pending: the sequence goes on or is broken here. -/
theorem subpartFrom_cons_of_tail {s s' : Code} {c : Byte} {legal : Bool} (h : delta s c = if legal then s' else ERR)
    (hacc : s' ≠ ACC) (herr : s' ≠ ERR) {i : Nat} (hi : 1 ≤ i) (b : List Byte) :
    subpartFrom s i (c :: b) = if legal then subpartFrom s' (i + 1) b else i := by
  cases legal with
  | true =>
    have hs' : delta s c = s' := h
    rw [subpartFrom_cons_of_pending (hs' ▸ hacc) (hs' ▸ herr), hs']; rfl
  | false => exact (subpartFrom_cons_of_error h i b).trans (max_eq_left hi)

/-! ## The lead byte and the byte after it (R92 to R94) -/

/-- A lead byte leaves the FSM pending. -/
theorem delta_ACC_of_lead {a : Byte} (h : Byte.within 0xC2 0xF4 a = true) : delta ACC a ≠ ACC ∧ delta ACC a ≠ ERR := by
  rw [delta_ACC]; revert a; decide

/-- Every other byte is a sequence of its own or breaks one. -/
theorem delta_ACC_of_not_lead {a : Byte} (h : ¬ Byte.within 0xC2 0xF4 a = true) :
    delta ACC a = ACC ∨ delta ACC a = ERR := by
  rw [delta_ACC]; revert a; decide

/-- The state after a lead byte and a second byte legal after it: one, two or three bytes follow the lead byte. -/
def afterSecond (a : Byte) : Code := if a < 0xE0 then ACC else if a < 0xF0 then T1 else T2

/-- The lead bytes without a second byte of their own go to the tail states of R93. -/
theorem delta_ACC_of_plain_lead {a : Byte} (h : Byte.within 0xC2 0xF4 a = true) (hE0 : a ≠ 0xE0) (hED : a ≠ 0xED)
    (hF0 : a ≠ 0xF0) (hF4 : a ≠ 0xF4) :
    (delta ACC a = T1 ∧ afterSecond a = ACC) ∨ (delta ACC a = T2 ∧ afterSecond a = T1) ∨
      (delta ACC a = T3 ∧ afterSecond a = T2) := by
  rw [delta_ACC]; revert a; decide

/-- R93, R94: the second byte is the legal one of R170, or breaks the sequence. -/
theorem delta_second {a : Byte} (h : Byte.within 0xC2 0xF4 a = true) (c : Byte) :
    delta (delta ACC a) c = if legalSecond a c then afterSecond a else ERR := by
  by_cases hE0 : a = 0xE0
  · subst hE0
    exact delta_E0 c
  by_cases hED : a = 0xED
  · subst hED
    exact delta_ED c
  by_cases hF0 : a = 0xF0
  · subst hF0
    exact delta_F0 c
  by_cases hF4 : a = 0xF4
  · subst hF4
    exact delta_F4 c
  have hlegal : legalSecond a c = isCont c := by
    rw [legalSecond, if_neg hE0, if_neg hED, if_neg hF0, if_neg hF4]
  rw [hlegal]
  obtain ⟨ha, htail⟩ | ⟨ha, htail⟩ | ⟨ha, htail⟩ := delta_ACC_of_plain_lead h hE0 hED hF0 hF4
  · rw [ha, htail, delta_T1]
  · rw [ha, htail, delta_T2]
  · rw [ha, htail, delta_T3]

/-! ## The table -/

/-- The first byte is consumed. -/
theorem msl_cons_of_lead {a : Byte} (h : Byte.within 0xC2 0xF4 a = true) (b : List Byte) :
    msl (a :: b) = subpartFrom (delta ACC a) 1 b := by
  obtain ⟨hacc, herr⟩ := delta_ACC_of_lead h
  rw [msl_eq_subpartFrom, subpartFrom_cons_of_pending hacc herr]

theorem msl_cons_of_not_lead {a : Byte} (h : ¬ Byte.within 0xC2 0xF4 a = true) (b : List Byte) : msl (a :: b) = 1 := by
  rw [msl_eq_subpartFrom]
  rcases delta_ACC_of_not_lead h with hacc | herr
  · exact subpartFrom_cons_of_accept hacc 0 b
  · exact subpartFrom_cons_of_error herr 0 b

theorem msl_singleton (a : Byte) : msl [a] = 1 := by
  by_cases h : Byte.within 0xC2 0xF4 a = true
  · rw [msl_cons_of_lead h, subpartFrom_nil (delta_ACC_of_lead h).2]
  · exact msl_cons_of_not_lead h []

/-- A sequence of two bytes ends with its second byte. -/
theorem msl_of_short_lead {a : Byte} (h : Byte.within 0xC2 0xF4 a = true) (htail : afterSecond a = ACC) (c : Byte)
    (b : List Byte) : msl (a :: c :: b) = if legalSecond a c then 2 else 1 := by
  have hsecond := delta_second h c
  rw [htail] at hsecond
  rw [msl_cons_of_lead h, subpartFrom_cons_of_last hsecond le_rfl]

/-- A longer one goes on in a tail state. -/
theorem msl_of_long_lead {a : Byte} (h : Byte.within 0xC2 0xF4 a = true) (hacc : afterSecond a ≠ ACC)
    (herr : afterSecond a ≠ ERR) (c : Byte) (b : List Byte) :
    msl (a :: c :: b) = if legalSecond a c then subpartFrom (afterSecond a) 2 b else 1 := by
  rw [msl_cons_of_lead h, subpartFrom_cons_of_tail (delta_second h c) hacc herr le_rfl]

theorem subpartFrom_T1_cons {i : Nat} (hi : 1 ≤ i) (d : Byte) (b : List Byte) :
    subpartFrom T1 i (d :: b) = if isCont d then i + 1 else i :=
  subpartFrom_cons_of_last (delta_T1 d) hi b

theorem subpartFrom_T2_cons {i : Nat} (hi : 1 ≤ i) (d : Byte) (b : List Byte) :
    subpartFrom T2 i (d :: b) = if isCont d then subpartFrom T1 (i + 1) b else i :=
  subpartFrom_cons_of_tail (delta_T2 d) (by decide) (by decide) hi b

/-- The rows `C2-DF`. -/
theorem msl_eq_table_of_lead2 {a : Byte} (h : Byte.within 0xC2 0xDF a = true) (c : Byte) (b : List Byte) :
    msl (a :: c :: b) = mslByShape (a :: c :: b) := by
  obtain ⟨hlead, htail⟩ : Byte.within 0xC2 0xF4 a = true ∧ afterSecond a = ACC := by revert a; decide
  rw [mslByShape, if_pos h, msl_of_short_lead hlead htail]

/-- The rows `E0-EF`. -/
theorem msl_eq_table_of_lead3 {a : Byte} (h : Byte.within 0xE0 0xEF a = true) (c : Byte) (b : List Byte) :
    msl (a :: c :: b) = mslByShape (a :: c :: b) := by
  obtain ⟨hlead, htail, h2⟩ : Byte.within 0xC2 0xF4 a = true ∧ afterSecond a = T1 ∧
      ¬ Byte.within 0xC2 0xDF a = true := by revert a; decide
  rw [mslByShape, if_neg h2, if_pos h,
    msl_of_long_lead hlead (htail.trans_ne (by decide)) (htail.trans_ne (by decide)), htail]
  rcases b with _ | ⟨d, b⟩
  · rw [subpartFrom_nil (by decide)]
  · rw [subpartFrom_T1_cons (by decide)]

/-- The rows `F0-F4`. -/
theorem msl_eq_table_of_lead4 {a : Byte} (h : Byte.within 0xF0 0xF4 a = true) (c : Byte) (b : List Byte) :
    msl (a :: c :: b) = mslByShape (a :: c :: b) := by
  obtain ⟨hlead, htail, h2, h3⟩ : Byte.within 0xC2 0xF4 a = true ∧ afterSecond a = T2 ∧
      ¬ Byte.within 0xC2 0xDF a = true ∧ ¬ Byte.within 0xE0 0xEF a = true := by revert a; decide
  rw [mslByShape, if_neg h2, if_neg h3, if_pos h,
    msl_of_long_lead hlead (htail.trans_ne (by decide)) (htail.trans_ne (by decide)), htail]
  rcases b with _ | ⟨d, _ | ⟨e, b⟩⟩
  · rw [subpartFrom_nil (by decide)]
  · rw [subpartFrom_T2_cons (by decide), subpartFrom_nil (by decide)]
  · rw [subpartFrom_T2_cons (by decide), subpartFrom_T1_cons (by decide)]

/-- Settles O50: the rows of the table by the lead byte; a buffer of one byte has length 1 in every row. -/
theorem maximalSubpartByShape : Obligations.MaximalSubpartByShape := by
  rintro (_ | ⟨a, _ | ⟨c, b⟩⟩)
  · rfl
  · simp only [msl_singleton, mslByShape, ite_self]
  by_cases h2 : Byte.within 0xC2 0xDF a = true
  · exact msl_eq_table_of_lead2 h2 c b
  by_cases h3 : Byte.within 0xE0 0xEF a = true
  · exact msl_eq_table_of_lead3 h3 c b
  by_cases h4 : Byte.within 0xF0 0xF4 a = true
  · exact msl_eq_table_of_lead4 h4 c b
  have hlead : ¬ Byte.within 0xC2 0xF4 a = true := by revert a; decide
  rw [mslByShape, if_neg h2, if_neg h3, if_neg h4, msl_cons_of_not_lead hlead]

/-- Settles O49: the bounds hold in every row of the table. -/
theorem maximalSubpartBounds : Obligations.MaximalSubpartBounds := by
  intro b
  rw [maximalSubpartByShape b]
  fun_cases mslByShape b <;> simp

end Sys2Proof.Machine
end

section
/-! The maximal subpart length at the prefix length of an invalid buffer (spec/43_classifier.md R172): the run from `ACC` at
the last Accept point repeats the states of the run over the whole buffer. -/

namespace Sys2Proof.Machine

/-! ## After the last Accept point, and before the first error -/

theorem stateAt_lastAccept (b : List Byte) (k : Nat) : stateAt ACC b (lastAccept ACC b k) = ACC := by
  induction k with
  | zero => rfl
  | succ k ih =>
    by_cases h : stateAt ACC b (k + 1) = ACC
    · rw [lastAccept_of_accept h, h]
    · rw [lastAccept_succ_of_ne h, ih]

/-- The last Accept point is the last. -/
theorem stateAt_ne_accept_of_lastAccept_lt {s0 : Code} {b : List Byte} {j k : Nat} (hlt : lastAccept s0 b k < j)
    (hle : j ≤ k) : stateAt s0 b j ≠ ACC := by
  induction k with
  | zero => exact absurd (hlt.trans_le hle) (Nat.not_lt_zero _)
  | succ k ih =>
    intro hacc
    rcases hle.eq_or_lt with rfl | hj
    · exact hlt.ne (lastAccept_of_accept hacc)
    · have hne : stateAt s0 b (k + 1) ≠ ACC := by
        intro h
        rw [lastAccept_of_accept h] at hlt
        omega
      rw [lastAccept_succ_of_ne hne] at hlt
      exact ih hlt (Nat.le_of_lt_succ hj) hacc

theorem stateAt_ne_error_of_firstError {s0 : Code} {b : List Byte} {j k : Nat} (h : firstError s0 b = some k)
    (hj : j < k) : stateAt s0 b j ≠ ERR := by
  obtain ⟨-, -, hmin⟩ := List.find?_range_eq_some.mp h
  simpa using hmin j hj

theorem stateAt_ne_error_of_firstError_none {s0 : Code} {b : List Byte} {j : Nat} (h : firstError s0 b = none)
    (hj : j ≤ b.length) : stateAt s0 b j ≠ ERR := by
  simpa using List.find?_range_eq_none.mp h j (Nat.lt_succ_of_le hj)

/-- A run from `ACC` has consumed a byte when it reaches its first error. -/
theorem firstError_ACC_ne_zero (b : List Byte) : firstError ACC b ≠ some 0 := by
  intro h
  exact absurd (firstError_spec h).2 (by rw [stateAt_zero]; decide)

/-! ## The two outcomes of `msl` on an ill-formed start -/

theorem msl_of_first_error {b : List Byte} {i : Nat} (hi : i < b.length) (herr : stateAt ACC b (i + 1) = ERR)
    (hpass : PassesBytes (stopNow opMSL) ACC b i) : msl b = max i 1 := by
  rw [msl_eq_scan, scan_of_first_stop hi hpass ((stopNow_opMSL_iff _).mpr (.inr herr)), subpartLength_of_error herr,
    Nat.add_sub_cancel]

theorem msl_of_never_stopped {b : List Byte} (hend : stateAt ACC b b.length ≠ ERR)
    (hpass : PassesBytes (stopNow opMSL) ACC b b.length) : msl b = b.length := by
  rw [msl_eq_scan, scan_of_passes hpass, subpartLength_of_ne hend]

/-! ## From the last Accept point on -/

section
variable {b : List Byte}

theorem stateAt_drop_of_accept {p : Nat} (h : stateAt ACC b p = ACC) (j : Nat) :
    stateAt ACC (b.drop p) j = stateAt ACC b (p + j) := by
  rw [stateAt_add, h, stateAt]

/-- Between the last Accept point and the first error every state is pending. -/
theorem passesBytes_drop_lastAccept {k : Nat} (herr : ∀ j ≤ k, stateAt ACC b j ≠ ERR) :
    PassesBytes (stopNow opMSL) ACC (b.drop (lastAccept ACC b k)) (k - lastAccept ACC b k) := by
  intro j hj
  rw [stateAt_drop_of_accept (stateAt_lastAccept b k), stopNow_opMSL_iff]
  exact not_or.mpr ⟨stateAt_ne_accept_of_lastAccept_lt (k := k) (by omega) (by omega), herr _ (by omega)⟩

/-- The first error leaves the last Accept point where it was before it. -/
theorem lastAccept_length_of_firstError {s0 : Code} {k : Nat} (h : firstError s0 b = some (k + 1)) :
    lastAccept s0 b b.length = lastAccept s0 b k := by
  obtain ⟨hk, herr⟩ := firstError_spec h
  obtain ⟨n, hn⟩ := Nat.exists_eq_add_of_le hk
  rw [hn, lastAccept_add_of_error herr, lastAccept_succ_of_ne (herr.trans_ne (by decide))]

/-- R172, when the scan of `b` reaches `ERR` at byte index `k`. -/
theorem msl_drop_of_firstError {k : Nat} (h : firstError ACC b = some (k + 1)) :
    msl (b.drop (lastAccept ACC b b.length)) = max (k - lastAccept ACC b b.length) 1 := by
  obtain ⟨hk, herr⟩ := firstError_spec h
  rw [lastAccept_length_of_firstError h]
  have hle : lastAccept ACC b k ≤ k := lastAccept_le ACC b k
  have hpass := passesBytes_drop_lastAccept fun j hj => stateAt_ne_error_of_firstError h (Nat.lt_succ_of_le hj)
  refine msl_of_first_error (by rw [List.length_drop]; omega) ?_ hpass
  rw [stateAt_drop_of_accept (stateAt_lastAccept b k), ← Nat.add_assoc, Nat.add_sub_cancel' hle, herr]

/-- R172, when `b` ends without an error. -/
theorem msl_drop_of_no_error (h : firstError ACC b = none) :
    msl (b.drop (lastAccept ACC b b.length)) = b.length - lastAccept ACC b b.length := by
  have hpass := passesBytes_drop_lastAccept fun j hj => stateAt_ne_error_of_firstError_none h hj
  rw [← List.length_drop] at hpass ⊢
  refine msl_of_never_stopped ?_ hpass
  rw [stateAt_drop_of_accept (stateAt_lastAccept b _), List.length_drop, Nat.add_sub_cancel' (lastAccept_le _ _ _)]
  exact stateAt_ne_error_of_firstError_none h le_rfl

end

/-! ## In the registers of a `CHK` transaction -/

theorem stopNow_opCHK_iff (s : Code) : stopNow opCHK s = true ↔ s = ERR := by
  revert s; decide

/-- A `CHK` scan stops right after the first error. -/
theorem scan_opCHK_of_firstError {s0 : Code} {b : List Byte} {k : Nat} (h : firstError s0 b = some (k + 1)) :
    scan s0 b (stopNow opCHK) = ⟨ERR, k + 1, lastAccept s0 b b.length, true⟩ := by
  obtain ⟨hk, herr⟩ := firstError_spec h
  have hpass : PassesBytes (stopNow opCHK) s0 b k := fun j hj hs =>
    stateAt_ne_error_of_firstError h (Nat.succ_lt_succ hj) ((stopNow_opCHK_iff _).mp hs)
  rw [scan_of_first_stop hk hpass ((stopNow_opCHK_iff _).mpr herr), lastAccept_length_of_firstError h,
    lastAccept_succ_of_ne (herr.trans_ne (by decide)), herr]

theorem scan_opCHK_of_no_error {s0 : Code} {b : List Byte} (h : firstError s0 b = none) :
    scan s0 b (stopNow opCHK) = ⟨stateAt s0 b b.length, b.length, lastAccept s0 b b.length, false⟩ :=
  scan_of_passes fun _ hj hs => stateAt_ne_error_of_firstError_none h hj ((stopNow_opCHK_iff _).mp hs)

/-- R172 on the counters of a `CHK` scan. -/
theorem msl_drop_eq_of_scan_opCHK (b : List Byte) {x : Scan} (hx : scan ACC b (stopNow opCHK) = x) :
    msl (b.drop (lastAccept ACC b b.length)) =
      if x.fsm = ERR then max (x.pos - 1 - x.la) 1 else x.pos - x.la := by
  subst hx
  cases h : firstError ACC b with
  | none =>
    rw [scan_opCHK_of_no_error h, if_neg (stateAt_ne_error_of_firstError_none h le_rfl)]
    exact msl_drop_of_no_error h
  | some k =>
    cases k with
    | zero => exact absurd h (firstError_ACC_ne_zero b)
    | succ k =>
      rw [scan_opCHK_of_firstError h, if_pos rfl]
      exact msl_drop_of_firstError h

/-- The registers just before `END`: a transaction opened in `IDLE`, its bytes fed, when none faults. -/
theorem run_bytes_of_idle {i : Instr} (hi : decodeBeat (encode i) = i) (hb : begins i = true) {b : List Byte}
    {s : State} (hp : s.regs.ph = .idle) {r : Regs s.lenw}
    (hfeed : Regs.feed Config.fastpath b (s.regs.opened (beginArgs s.regs.ss i).1 (beginArgs s.regs.ss i).2.1
      (beginArgs s.regs.ss i).2.2) = .ok r) :
    Sys2Proof.core.run (b.length + 1) { s with input := txInput i b } =
      .next { s with regs := r, input := [presentInstr (.endTx 0)] } := by
  rw [txInput, run_cons, cycle_presentInstr hi, exec_begin_of_idle hb hp]
  exact run_bytesInput (s := s.mapRegs _) hfeed 0 _

/-- Settles O52: on buffers by the two ends of the scan, and in the registers by the counters of the `CHK` scan. -/
theorem subpartFollowsFromCheck : Obligations.SubpartFollowsFromCheck := by
  intro b _
  rw [validate_eq]
  refine ⟨fun k => msl_drop_of_firstError, msl_drop_of_no_error, fun s hidle hlen => ?_⟩
  obtain ⟨n, hfeed, -⟩ := feed_opened Config.fastpath b (m := opCHK) rfl ACC false s.regs
  refine ⟨_, run_bytes_of_idle (i := .chk 0) (decodeBeat_append 0x2 0) rfl hidle hfeed, ?_⟩
  obtain ⟨k, hk, broke, hscan⟩ := scan_eq_stateAt (stopNow opCHK) ACC b
  rw [scanned_fsm, scanned_pos, scanned_la, hscan, toNat_ofNat_of_le (hk.trans hlen),
    toNat_ofNat_of_le ((lastAccept_le ACC b k).trans (hk.trans hlen))]
  exact msl_drop_eq_of_scan_opCHK b hscan

end Sys2Proof.Machine
end

section
/-! `SINIT` (spec/44_streaming.md R180) and the five cases of `END` in `SCHK` mode (R184). -/

namespace Sys2Proof.Machine

/-! ## `SINIT` -/

theorem exec_sinit (d : Byte) (s : State) : exec (.sinit d) s = .next (s.mapRegs Regs.sinit) := rfl

theorem exec_sinit_of_idle (d : Byte) {s : State} (h : s.regs.ph = .idle) :
    exec (.sinit d) s = .next (s.mapRegs fun r => { r with ss := ACC }) := by
  rw [exec_sinit, State.mapRegs, sinit_of_idle s.regs h, State.mapRegs]

theorem exec_sinit_of_open (d : Byte) {s : State} (h : s.regs.ph ≠ .idle) :
    exec (.sinit d) s = .next (s.mapRegs Regs.violation) := by
  rw [exec_sinit, State.mapRegs, Regs.sinit, if_neg h, State.mapRegs]

/-- Settles O24: the opcode decodes to `SINIT`, which has one rule in `IDLE` and is a violation elsewhere. -/
theorem sinitResetsStreamState : Obligations.SinitResetsStreamState :=
  ⟨fun _ h => decodeBeat_b12_of_opField h, fun d _ => ⟨exec_sinit_of_idle d, exec_sinit_of_open d⟩⟩

/-! ## `END` in `SCHK` mode -/

section
variable {w : Nat} {r : Regs w}

theorem resultSchk_of_empty (hpos : r.pos = 0) : resultSchk r = { err := false, len := 0, ss := r.ss } := if_pos hpos

theorem resultSchk_of_error (hpos : r.pos ≠ 0) (herr : r.fsm = ERR) :
    resultSchk r = { err := true, len := r.la, ss := ACC } := by
  rw [resultSchk, if_neg hpos, if_pos herr]

theorem resultSchk_of_accept (hpos : r.pos ≠ 0) (hacc : r.fsm = ACC) :
    resultSchk r = { err := false, len := r.pos, ss := ACC } := by
  rw [resultSchk, if_neg hpos, if_neg (hacc.trans_ne (by decide)), if_pos hacc]

theorem resultSchk_of_final (hpos : r.pos ≠ 0) (herr : r.fsm ≠ ERR) (hacc : r.fsm ≠ ACC) (hfin : r.fin = true) :
    resultSchk r = { err := true, len := r.la, ss := ACC } := by
  rw [resultSchk, if_neg hpos, if_neg herr, if_neg hacc, if_pos hfin]

theorem resultSchk_of_more (hpos : r.pos ≠ 0) (herr : r.fsm ≠ ERR) (hacc : r.fsm ≠ ACC) (hfin : r.fin = false) :
    resultSchk r = { err := false, len := r.la, ss := r.fsm } := by
  rw [resultSchk, if_neg hpos, if_neg herr, if_neg hacc, if_neg (Bool.eq_false_iff.mp hfin)]

end

theorem exec_endTx_of_schk (d : Byte) {s : State} (h : s.regs.ph ≠ .idle) (hm : s.regs.mode = opSCHK)
    {res : EndResult s.lenw} (hres : resultSchk s.regs = res) :
    exec (.endTx d) s = .next (s.withRegs (s.regs.closed res)) :=
  exec_endTx_of_open d h ((endResult_of_schk hm).trans (congrArg some hres))

/-- Settles O34: each case of R184 is its own arm of the result, and `END` writes that arm's values and nothing else. -/
theorem endReportsChunkResult : Obligations.EndReportsChunkResult := by
  refine fun d s h hm => ⟨?_, ?_, ?_, ?_, ?_⟩
  · exact fun hpos => exec_endTx_of_schk d h hm (resultSchk_of_empty hpos)
  · exact fun hpos herr => exec_endTx_of_schk d h hm (resultSchk_of_error hpos herr)
  · exact fun hpos hacc => exec_endTx_of_schk d h hm (resultSchk_of_accept hpos hacc)
  · exact fun hpos herr hacc hfin => exec_endTx_of_schk d h hm (resultSchk_of_final hpos herr hacc hfin)
  · exact fun hpos herr hacc hfin => exec_endTx_of_schk d h hm (resultSchk_of_more hpos herr hacc hfin)

end Sys2Proof.Machine
end

section
/-! `SCHK` transactions (spec/44_streaming.md R185, R186): `END` reports what `stream_check` (R183) returns of the chunk. -/

namespace Sys2Proof.Machine

/-! ## `stream_check` without its search for the first error -/

theorem streamCheck_of_empty (ss : Code) {c : List Byte} (h : c.length = 0) (f : Bool) :
    streamCheck ss c f = ⟨false, 0, ss⟩ := if_pos h

/-- R183 read at the end of the chunk: `ERR` is absorbing and no Accept point follows it. -/
theorem streamCheck_of_nonempty (ss : Code) {c : List Byte} (h : c.length ≠ 0) (f : Bool) :
    streamCheck ss c f =
      if stateAt ss c c.length = ERR then ⟨true, lastAccept ss c c.length, ACC⟩
      else if stateAt ss c c.length = ACC then ⟨false, c.length, ACC⟩
      else if f then ⟨true, lastAccept ss c c.length, ACC⟩
      else ⟨false, lastAccept ss c c.length, stateAt ss c c.length⟩ := by
  rw [streamCheck, if_neg h]
  cases hfirst : firstError ss c with
  | some k =>
    obtain ⟨hle, herr⟩ := firstError_spec hfirst
    obtain ⟨n, hn⟩ := Nat.exists_eq_add_of_le hle
    rw [hn, stateAt_add_of_error herr, lastAccept_add_of_error herr, if_pos rfl]
  | none => rw [if_neg (stateAt_ne_error_of_firstError_none hfirst le_rfl)]

/-! ## The result of `END` as the result of a streaming call -/

/-- R184's reading of the registers: `R_ERR`, `R_LEN` as a number, and `SS`. -/
def EndResult.toStream {w : Nat} (res : EndResult w) : StreamResult := ⟨res.err, res.len.toNat, res.ss⟩

/-- The cases of R184 are those of R183, when the registers hold what the chunk's bytes leave. -/
theorem resultSchk_toStream {w : Nat} {r : Regs w} {c : List Byte} (hfsm : r.fsm = stateAt r.ss c c.length)
    (hla : r.la.toNat = lastAccept r.ss c c.length) (hzero : r.pos = 0 ↔ c.length = 0)
    (hpos : r.fsm ≠ ERR → r.pos.toNat = c.length) : (resultSchk r).toStream = streamCheck r.ss c r.fin := by
  by_cases hc : c.length = 0
  · rw [streamCheck_of_empty r.ss hc, resultSchk_of_empty (hzero.mpr hc), EndResult.toStream, BitVec.ofNat_eq_ofNat,
      BitVec.toNat_zero]
  · have hne : r.pos ≠ 0 := mt hzero.mp hc
    rw [streamCheck_of_nonempty r.ss hc, ← hfsm, ← hla]
    split
    · next herr => rw [resultSchk_of_error hne herr]; rfl
    · next herr =>
      rw [← hpos herr]
      split
      · next hacc => rw [resultSchk_of_accept hne hacc]; rfl
      · next hacc =>
        split
        · next hfin => rw [resultSchk_of_final hne herr hacc hfin]; rfl
        · next hfin => rw [resultSchk_of_more hne herr hacc (Bool.eq_false_iff.mpr hfin)]; rfl

/-! ## The counters of the transaction -/

theorem scan_pos_le (stop : Code → Bool) (s0 : Code) (b : List Byte) : (scan s0 b stop).pos ≤ b.length := by
  obtain ⟨k, hk, broke, hscan⟩ := scan_eq_stateAt stop s0 b
  rw [hscan]
  exact hk

/-- A scan consumes at least the first byte. -/
theorem scan_pos_eq_zero_iff (stop : Code → Bool) (s0 : Code) (b : List Byte) :
    (scan s0 b stop).pos = 0 ↔ b.length = 0 := by
  rcases exists_first_stop_or_passes stop s0 b with ⟨i, hi, hpass, hs⟩ | hpass
  · rw [scan_of_first_stop hi hpass hs]
    exact ⟨fun h => absurd h (Nat.succ_ne_zero i), fun h => absurd h (Nat.ne_of_gt (Nat.zero_lt_of_lt hi))⟩
  · rw [scan_of_passes hpass]

theorem ofNat_eq_zero_iff_of_le {w k : Nat} (h : k ≤ 2 ^ w - 1) : BitVec.ofNat w k = 0 ↔ k = 0 := by
  rw [← BitVec.toNat_inj, toNat_ofNat_of_le h, BitVec.ofNat_eq_ofNat, BitVec.toNat_zero]

/-- After `SCHK` and the bytes of a chunk, `END` has the result of `stream_check`, however many ROM reads `n` they took. -/
theorem resultSchk_scanned {w : Nat} (r : Regs w) {c : List Byte} (f : Bool) (n : Nat)
    (hlen : c.length ≤ 2 ^ w - 1) :
    (resultSchk ((r.opened opSCHK r.ss f).scanned (scan r.ss c (stopNow opSCHK)) n)).toStream =
      streamCheck r.ss c f := by
  obtain ⟨hfsm, hla, hpos⟩ := scan_of_stop_error (stop := stopNow opSCHK) (by decide) r.ss c
  have hfit := (scan_pos_le (stopNow opSCHK) r.ss c).trans hlen
  refine resultSchk_toStream hfsm ?_ ?_ fun hne => ?_
  · rw [scanned_la, hla]
    exact toNat_ofNat_of_le ((lastAccept_le r.ss c c.length).trans hlen)
  · rw [scanned_pos, ofNat_eq_zero_iff_of_le hfit, scan_pos_eq_zero_iff]
  · rw [scanned_pos, toNat_ofNat_of_le hfit, hpos hne]

/-! ## The transaction -/

theorem decodeBeat_encode_schk (g : BitVec 7) (f : Bool) : decodeBeat (encode (.schk g f)) = .schk g f := by
  refine (decodeBeat_append 0x5 _).trans ?_
  revert g f; decide

/-- Settles O43: `END` closes the registers that the chunk's bytes leave, and their result is that of `stream_check`. -/
theorem streamingAgreesWithStreamCheck : Obligations.StreamingAgreesWithStreamCheck := by
  intro s c f hidle hlen
  obtain ⟨n, hfeed, -⟩ := feed_opened Config.fastpath c (m := opSCHK) rfl s.regs.ss f s.regs
  have hrun := runTx_of_idle (decodeBeat_encode_schk 0 f) rfl hidle hfeed
  rw [endBeat_of_open _ (scanned_ph_ne_idle _ _ _) _ (endResult_of_schk rfl)] at hrun
  have hres := resultSchk_scanned s.regs f n hlen
  exact ⟨_, hrun, rfl, congrArg StreamResult.err hres, congrArg StreamResult.len hres, congrArg StreamResult.ss hres,
    rfl⟩

/-- Settles O44: no byte moves `POS` from the 0 that `SCHK` writes, so `END` takes the case of an empty chunk. -/
theorem emptyChunkLeavesStreamPending : Obligations.EmptyChunkLeavesStreamPending := by
  intro s g f hidle
  have hrun := runTx_of_idle (decodeBeat_encode_schk g f) rfl hidle (b := []) rfl
  rw [endBeat_of_open _ (by simp) _ ((endResult_of_schk rfl).trans (congrArg some (resultSchk_of_empty rfl)))] at hrun
  exact ⟨_, hrun, rfl, rfl, rfl, rfl⟩

end Sys2Proof.Machine
end

section
/-! Constant-time transactions (spec/45_constant_time.md R202, R203): no state stops them, so that every byte is looked
up, and `END` reads the registers as it does after `WF` and `CHK`. -/

namespace Sys2Proof.Machine

/-! ## Every byte is looked up (R202) -/

/-- R126: in the constant-time modes no state stops the sequencer. -/
theorem stopNow_of_constantTime {m : Code} (h : m = opWFCT ∨ m = opCHKCT) (s : Code) : stopNow m s = false := by
  rcases h with rfl | rfl <;> rfl

theorem isBegin_of_constantTime {m : Code} (h : m = opWFCT ∨ m = opCHKCT) : isBegin m = true := by
  rcases h with rfl | rfl <;> rfl

/-- R135: `MODE[3]` = 1 in the constant-time modes, which shuts out the fast path. -/
theorem modeBit3_of_constantTime {m : Code} (h : m = opWFCT ∨ m = opCHKCT) : m.getLsbD 3 = true := by
  rcases h with rfl | rfl <;> rfl

/-- A constant-time scan consumes the whole buffer and never breaks. -/
theorem scan_of_constantTime {m : Code} (h : m = opWFCT ∨ m = opCHKCT) (s0 : Code) (b : List Byte) :
    scan s0 b (stopNow m) = ⟨stateAt s0 b b.length, b.length, lastAccept s0 b b.length, false⟩ :=
  scan_of_passes fun _ _ => Bool.eq_false_iff.mp (stopNow_of_constantTime h _)

/-- The bytes of a constant-time transaction leave the registers of that scan, after one ROM read a byte. -/
theorem feed_opened_of_constantTime {w : Nat} (fast : Bool) (b : List Byte) {m : Code} (h : m = opWFCT ∨ m = opCHKCT)
    (s0 : Code) (f : Bool) (r : Regs w) :
    Regs.feed fast b (r.opened m s0 f) = .ok ((r.opened m s0 f).scanned
      ⟨stateAt s0 b b.length, b.length, lastAccept s0 b b.length, false⟩ b.length) := by
  obtain ⟨n, hfeed, hn⟩ := feed_opened fast b (isBegin_of_constantTime h) s0 f r
  rw [hn (.inr (modeBit3_of_constantTime h)), scan_of_constantTime h] at hfeed
  exact hfeed

/-- `END` has a result in every open transaction whose `MODE` is a begin opcode. -/
theorem endBeat_of_isBegin {w : Nat} {r : Regs w} (hp : r.ph ≠ .idle) (hm : isBegin r.mode = true) :
    ∃ res, r.endBeat = .ok (r.closed res) := by
  obtain ⟨res, hres⟩ := Option.isSome_iff_exists.mp ((endResult_isSome r).trans hm)
  exact ⟨res, endBeat_of_open r hp res hres⟩

/-- Settles O46: the registers after the bytes are those of a scan that never breaks, and `END` leaves `NLK` alone. -/
theorem constantTimeLooksUpEveryByte : Obligations.ConstantTimeLooksUpEveryByte := by
  intro w fast m b r hm hidle
  rw [beginTx_of_idle m ACC false r hidle]
  refine ⟨_, feed_opened_of_constantTime fast b hm ACC false r, rfl, rfl, rfl, stateAt_length ACC b, rfl, rfl, rfl, ?_⟩
  obtain ⟨res, hend⟩ := endBeat_of_isBegin (scanned_ph_ne_idle _ _ (r.opened m ACC false)) (isBegin_of_constantTime hm)
  exact ⟨_, hend, rfl, rfl⟩

/-! ## The results are those of the early-exit counterparts (R203) -/

section
variable {i : Instr} {m : Code} {b : List Byte} {s : State} (hi : decodeBeat (encode i) = i) (hb : begins i = true)
  (hargs : beginArgs s.regs.ss i = (m, ACC, false)) (hidle : s.regs.ph = .idle) (hlen : b.length ≤ 2 ^ s.lenw - 1)
include hi hb hargs hidle hlen

/-- A transaction from `ACC` in a mode that stops on nothing but `ERR` is `END` on what the whole buffer leaves. -/
theorem runTx_of_stop_error (hm : isBegin m = true) (hstop : ∀ c, stopNow m c = true → c = ERR) :
    ∃ r : Regs s.lenw, runTx i b s = State.outcome { s with input := [] } r.endBeat ∧ r.ph ≠ .idle ∧ r.mode = m ∧
      r.fsm = stateAt ACC b b.length ∧ r.la.toNat = lastAccept ACC b b.length ∧
      (r.fsm ≠ ERR → r.pos.toNat = b.length) := by
  obtain ⟨r, hfeed, hph, hmode, -, -, hregs⟩ :=
    feed_opened_of_stop_error Config.fastpath hm hstop ACC false s.regs hlen
  exact ⟨r, runTx_of_idle hi hb hidle (by rw [hargs]; exact hfeed), hph, hmode, hregs⟩

/-- R150, R200: `WF` and `WFCT` report the same function of the buffer. -/
theorem runTx_of_wfMode (hm : m = opWF ∨ m = opWFCT) :
    ∃ t, runTx i b s = .next t ∧ t.regs.rDone = true ∧ t.regs.rErr = decide (stateAt ACC b b.length ≠ ACC) ∧
      t.regs.rLen.toNat = 0 := by
  obtain ⟨r, hrun, hph, hmode, hfsm, -⟩ := runTx_of_stop_error hi hb hargs hidle hlen
    (by rcases hm with rfl | rfl <;> rfl) (by rcases hm with rfl | rfl <;> decide)
  rw [endBeat_of_open r hph _ (endResult_of_wf (by rwa [hmode]))] at hrun
  exact ⟨_, hrun, rfl, congrArg (fun c => decide (c ≠ ACC)) hfsm, BitVec.toNat_zero⟩

/-- R151, R201: `CHK` and `CHKCT` report the same function of the buffer. -/
theorem runTx_of_chkMode (hm : m = opCHK ∨ m = opCHKCT) :
    ∃ t, runTx i b s = .next t ∧ t.regs.rDone = true ∧ t.regs.rErr = decide (stateAt ACC b b.length ≠ ACC) ∧
      t.regs.rLen.toNat = (validate b).2 := by
  obtain ⟨r, hrun, hph, hmode, hfsm, hla, hpos⟩ := runTx_of_stop_error hi hb hargs hidle hlen
    (by rcases hm with rfl | rfl <;> rfl) (by rcases hm with rfl | rfl <;> decide)
  rw [endBeat_of_open r hph _ (endResult_of_chk (by rwa [hmode])), closed_resultChk] at hrun
  exact ⟨_, hrun, rfl, congrArg (fun c => decide (c ≠ ACC)) hfsm, chkLength_toNat hfsm hla hpos⟩

end

/-- Settles O45: the results of a mode and of its constant-time counterpart are the same functions of the buffer. -/
theorem constantTimeGivesSameResults : Obligations.ConstantTimeGivesSameResults := by
  refine fun s b hidle hlen => ⟨?_, ?_⟩
  · obtain ⟨t, ht, hdone, herr, hlenT⟩ :=
      runTx_of_wfMode (i := .wf 0) (decodeBeat_append 0x1 0) rfl rfl hidle hlen (.inl rfl)
    obtain ⟨u, hu, hdone', herr', hlenU⟩ :=
      runTx_of_wfMode (i := .wfct 0) (decodeBeat_append 0x9 0) rfl rfl hidle hlen (.inr rfl)
    exact ⟨t, u, ht, hu, hdone'.trans hdone.symm, herr'.trans herr.symm, hlenU.trans hlenT.symm⟩
  · obtain ⟨t, ht, hdone, herr, hlenT⟩ :=
      runTx_of_chkMode (i := .chk 0) (decodeBeat_append 0x2 0) rfl rfl hidle hlen (.inl rfl)
    obtain ⟨u, hu, hdone', herr', hlenU⟩ :=
      runTx_of_chkMode (i := .chkct 0) (decodeBeat_append 0xA 0) rfl rfl hidle hlen (.inr rfl)
    exact ⟨t, u, ht, hu, hdone'.trans hdone.symm, herr'.trans herr.symm, hlenU.trans hlenT.symm⟩

end Sys2Proof.Machine
end

section
/-! Protocol violations (spec/60_exceptions.md R226, R227). What an instruction can do to the registers is also what it does,
so that the rules about `PERR` are rules about `Regs.Steps`. -/

namespace Sys2Proof.Machine

/-! ## From what the registers can do to what an instruction does -/

/-- R226: a violation, of whichever of the five kinds, is the one shared operation. -/
theorem exec_of_violation {i : Instr} {s : State} (h : isViolation i s.regs.ph = true) :
    exec i s = .next (s.mapRegs Regs.violation) := by
  cases i with
  | nop => cases h
  | wf | chk | msl | schk | wfct | chkct => exact exec_begin_of_open rfl (of_decide_eq_true h)
  | sinit d => exact exec_sinit_of_open d (of_decide_eq_true h)
  | endTx d => exact exec_endTx_of_idle d (of_decide_eq_true h)
  | reserved8 | reservedB | reservedC | reservedD | reservedE | reservedF => rfl
  | byte | ascii | contA | contB | contC | badC0 | lead2 | lead3E0 | lead3 | lead3ED | lead4F0 | lead4 | lead4F4
  | badF5 => exact exec_data_of_idle rfl (of_decide_eq_true h)

/-- A data instruction in `RUN` reads the ROM: `FASTPATH` is false in the machine. -/
theorem exec_data_of_run {i : Instr} {s : State} (hd : isData i = true) (h : s.regs.ph = .run) {stop : Bool}
    (hs : stops s.regs.mode (unpack (dataRow i) s.regs.fsm) = some stop) :
    exec i s = .next (s.withRegs (s.regs.consumed (unpack (dataRow i) s.regs.fsm) true stop)) := by
  obtain ⟨b, hb⟩ := exec_data i s hd
  rw [hb, byteBeat_of_run Config.fastpath (dataRow i) b s.regs h stop hs, outcome_ok]
  rfl

/-- The converse of `exec_cases`. -/
theorem exec_of_steps {i : Instr} {s : State} {r : Regs s.lenw} (h : s.regs.Steps i r) :
    exec i s = .next (s.withRegs r) := by
  obtain ⟨hv, rfl⟩ | ⟨-, ⟨hb, hp, rfl⟩ | ⟨⟨d, rfl⟩, hp, rfl⟩ | ⟨hd, hp, stop, hs, rfl⟩ | ⟨hd, hp, rfl⟩ |
    ⟨⟨d, rfl⟩, hp, res, hres, rfl⟩ | ⟨⟨d, rfl⟩, rfl⟩⟩ := h
  · exact exec_of_violation hv
  · exact exec_begin_of_idle hb hp
  · exact exec_sinit_of_idle d hp
  · exact exec_data_of_run hd hp hs
  · exact exec_data_of_stop hd hp
  · exact exec_endTx_of_open d hp hres
  · exact exec_nop d s

/-! ## `PERR` in what an instruction does -/

/-- R227: `PERR` is what it was, or the instruction is a violation. -/
theorem Regs.Steps.perr_eq {w : Nat} {i : Instr} {r r' : Regs w} (h : r.Steps i r') :
    r'.perr = (r.perr || isViolation i r.ph) := by
  obtain ⟨hv, rfl⟩ | ⟨hv, hkept⟩ := h
  · rw [hv, Bool.or_true, violation_perr]
  · rw [hv, Bool.or_false]
    obtain ⟨-, -, rfl⟩ | ⟨-, -, rfl⟩ | ⟨-, -, stop, -, rfl⟩ | ⟨-, -, rfl⟩ | ⟨-, -, res, -, rfl⟩ | ⟨-, rfl⟩ := hkept
    · exact opened_perr _ _ _ r
    · rfl
    · exact consumed_perr _ true stop r
    · rfl
    · exact closed_perr res r
    · rfl

/-- R226: with another value of `PERR` an instruction does the same to every other register. -/
theorem Regs.Steps.replace_perr {w : Nat} {i : Instr} {r r' : Regs w} (h : r.Steps i r') (p : Bool) :
    Regs.Steps i { r with perr := p } { r' with perr := p || isViolation i r.ph } := by
  obtain ⟨hv, rfl⟩ | ⟨hv, hkept⟩ := h
  · rw [hv, Bool.or_true]
    exact .inl ⟨hv, rfl⟩
  · rw [hv, Bool.or_false]
    refine .inr ⟨hv, ?_⟩
    obtain ⟨hb, hp, rfl⟩ | ⟨hi, hp, rfl⟩ | ⟨hd, hp, stop, hs, rfl⟩ | ⟨hd, hp, rfl⟩ | ⟨hi, hp, res, hres, rfl⟩ |
      ⟨hi, rfl⟩ := hkept
    · exact .inl ⟨hb, hp, rfl⟩
    · exact .inr (.inl ⟨hi, hp, rfl⟩)
    · exact .inr (.inr (.inl ⟨hd, hp, stop, hs, rfl⟩))
    · exact .inr (.inr (.inr (.inl ⟨hd, hp, rfl⟩)))
    · exact .inr (.inr (.inr (.inr (.inl ⟨hi, hp, res, hres, rfl⟩))))
    · exact .inr (.inr (.inr (.inr (.inr ⟨hi, rfl⟩))))

/-! ## The obligations -/

/-- Settles O26, by what an instruction can do to the registers. -/
theorem violationsAreExactlyListed : Obligations.ViolationsAreExactlyListed := by
  intro i s t h
  obtain ⟨r, rfl, hr⟩ := exec_cases h
  exact hr.perr_eq

/-- No instruction clears `PERR`. -/
theorem exec_keeps_perr {i : Instr} {s t : State} (h : exec i s = .next t) (hperr : s.regs.perr = true) :
    t.regs.perr = true := by
  rw [violationsAreExactlyListed i s t h, hperr, Bool.true_or]

/-- `PERR` is sticky: of the cycles, only one of reset clears it. -/
theorem step_keeps_perr {s t : State} (h : step s = .next t) (hperr : s.regs.perr = true)
    (hrst : ∀ c rest, s.input = c :: rest → c.rst = false) : t.regs.perr = true := by
  obtain ⟨-, rfl⟩ | ⟨c, rest, hin, ⟨hreset, -⟩ | ⟨-, -, rfl⟩ | ⟨-, -, hexec⟩⟩ := step_cases h
  · exact hperr
  · exact absurd hreset (by rw [hrst c rest hin]; exact Bool.false_ne_true)
  · exact hperr
  · exact exec_keeps_perr hexec hperr

/-- Settles O27: a violation is the shared operation, `Regs.Steps` holds with any `PERR`, and `PERR` is sticky. -/
theorem violationLeavesTransactionAlone : Obligations.ViolationLeavesTransactionAlone := by
  refine ⟨fun i s hv => exec_of_violation hv, fun i s t p h => ?_, fun s t => step_keeps_perr⟩
  obtain ⟨r, rfl, hr⟩ := exec_cases h
  exact exec_of_steps (s := s.mapRegs fun r => { r with perr := p }) (hr.replace_perr p)

end Sys2Proof.Machine
end

section
/-! A cycle of reset (spec/70_reset_and_hazards.md R250). -/

namespace Sys2Proof.Machine

theorem step_of_input {s : State} {c : PortIn} {rest : List PortIn} (h : s.input = c :: rest) :
    step s = cycle c { s with input := rest } := by rw [step, h]

/-- R250: the beat of a reset cycle is not looked at. -/
theorem cycle_of_rst {c : PortIn} (h : c.rst = true) (s : State) :
    cycle c s = .next (s.mapRegs Regs.applyReset) := if_pos h

/-- Settles O8: a reset cycle writes the table of R27 whatever it carries, and `PERR` is sticky in every other cycle. -/
theorem resetCycleOverridesBeat : Obligations.ResetCycleOverridesBeat := by
  refine ⟨fun s valid x rest hin => ?_, fun s t h hperr hclear => ?_⟩
  · rw [step_of_input hin, cycle_of_rst rfl]
    rfl
  · by_contra hno
    have hrst (c : PortIn) (rest : List PortIn) (hin : s.input = c :: rest) : c.rst = false :=
      Bool.eq_false_iff.mpr fun hr => hno ⟨c, rest, hin, hr⟩
    exact Bool.false_ne_true (hclear.symm.trans (step_keeps_perr h hperr hrst))

end Sys2Proof.Machine
end

section
/-! Past the length bound (spec/70_reset_and_hazards.md R262): the counters are those of `scan` modulo `2^LENW`, and no
verdict but that of `SCHK` reads them. -/

namespace Sys2Proof.Machine

/-- R150, R151, R200, R201: in the validating modes `R_ERR` is read off `S` alone. -/
theorem endBeat_of_validating {w : Nat} {r : Regs w} (hp : r.ph ≠ .idle)
    (hm : r.mode = opWF ∨ r.mode = opCHK ∨ r.mode = opWFCT ∨ r.mode = opCHKCT) :
    ∃ u, r.endBeat = .ok u ∧ u.rErr = decide (r.fsm ≠ ACC) := by
  have hwf (h : r.mode = opWF ∨ r.mode = opWFCT) : ∃ u, r.endBeat = .ok u ∧ u.rErr = decide (r.fsm ≠ ACC) :=
    ⟨_, endBeat_of_open r hp _ (endResult_of_wf h), rfl⟩
  have hchk (h : r.mode = opCHK ∨ r.mode = opCHKCT) : ∃ u, r.endBeat = .ok u ∧ u.rErr = decide (r.fsm ≠ ACC) :=
    ⟨_, endBeat_of_open r hp _ (endResult_of_chk h), by rw [closed_resultChk]⟩
  rcases hm with h | h | h | h
  · exact hwf (.inl h)
  · exact hchk (.inl h)
  · exact hwf (.inr h)
  · exact hchk (.inr h)

/-- R126: the validating modes are begin opcodes, and stop on nothing but `ERR`. -/
theorem stopNow_of_validating {m : Code} (hm : m = opWF ∨ m = opCHK ∨ m = opWFCT ∨ m = opCHKCT) :
    isBegin m = true ∧ ∀ s, stopNow m s = true → s = ERR := by
  revert m; decide

/-- Settles O47: whatever the length, the bytes leave the scan's state and its counters modulo `2^LENW`; `S` decides the
verdict, but in `SCHK` mode `POS` = 0 is tested first. -/
theorem verdictSurvivesWrap : Obligations.VerdictSurvivesWrap := by
  intro w fast b r hidle
  simp only [fun m s0 f => beginTx_of_idle m s0 f r hidle]
  refine ⟨fun m s0 f hm => ?_, fun m hm => ?_, ?_, fun f hwrap => ?_⟩
  · obtain ⟨n, hfeed, -⟩ := feed_opened fast b hm s0 f r
    exact ⟨_, hfeed, rfl, rfl⟩
  · obtain ⟨hbegin, hstop⟩ := stopNow_of_validating hm
    obtain ⟨n, hfeed, -⟩ := feed_opened fast b hbegin ACC false r
    obtain ⟨u, hend, herr⟩ := endBeat_of_validating (scanned_ph_ne_idle _ n (r.opened m ACC false)) hm
    refine ⟨_, u, hfeed, hend, ?_⟩
    rw [herr]
    exact error_clear_iff (scan_of_stop_error hstop ACC b).1
  · obtain ⟨n, hfeed, -⟩ := feed_opened fast b (m := opMSL) rfl ACC false r
    exact ⟨_, _, hfeed, endBeat_of_open _ (scanned_ph_ne_idle _ _ _) _ (endResult_of_msl rfl), rfl⟩
  · obtain ⟨n, hfeed, -⟩ := feed_opened fast b (m := opSCHK) rfl r.ss f r
    have hpos : ((r.opened opSCHK r.ss f).scanned (scan r.ss b (stopNow opSCHK)) n).pos = 0 := by
      rw [scanned_pos, hwrap, ← BitVec.toNat_inj, BitVec.toNat_ofNat, Nat.mod_self, BitVec.ofNat_eq_ofNat,
        BitVec.toNat_zero]
    have hres := (endResult_of_schk rfl).trans (congrArg some (resultSchk_of_empty hpos))
    exact ⟨_, _, hfeed, endBeat_of_open _ (scanned_ph_ne_idle _ _ _) _ hres, rfl, rfl, rfl⟩

end Sys2Proof.Machine
end

section
/-! Resuming after a sequence that began in an earlier chunk (spec/70_reset_and_hazards.md R267, case b): the `MSL` scan
goes past the kept bytes, and no scan from a state that is not `ERR` gives back bytes it has consumed. -/

namespace Sys2Proof.Machine

theorem length_le_four_of_isShape {p : List Byte} (h : isShape p = true) : p.length ≤ 4 := by
  rcases p with _ | ⟨a, _ | ⟨b, _ | ⟨c, _ | ⟨d, _ | ⟨e, p⟩⟩⟩⟩⟩
  case cons.cons.cons.cons.cons => cases h
  all_goals simp

/-- R100: a pending sequence lacks at least one byte of a shape. -/
theorem pending_length_le {b : List Byte} (h : isPending (stateAt ACC b b.length) = true) :
    b.length - lastAccept ACC b b.length ≤ 3 := by
  obtain ⟨-, hpending, -⟩ := statesTellPendingBytes b b.length le_rfl
  obtain ⟨-, ⟨q, hq, hshape⟩, -⟩ := hpending h
  have hfour := length_le_four_of_isShape hshape
  rw [List.take_length, List.length_append, List.length_drop] at hfour
  have hmore : 0 < q.length := List.length_pos_iff.mpr hq
  omega

/-! ## The kept bytes at the start of a longer buffer -/

section
variable {s0 : Code} {a : List Byte} {k : Nat} (hk : k ≤ a.length) (c : List Byte)
include hk

theorem stateAt_append_of_le : stateAt s0 (a ++ c) k = stateAt s0 a k := by
  rw [stateAt, List.take_append_of_le_length hk, stateAt]

theorem lastAccept_append_of_le : lastAccept s0 (a ++ c) k = lastAccept s0 a k := by
  induction k with
  | zero => rfl
  | succ k ih => rw [lastAccept, lastAccept, stateAt_append_of_le hk c, ih (Nat.le_of_lt hk)]

end

/-! ## The scan past the kept bytes -/

theorem le_subpartFrom {s : Code} (h : s ≠ ERR) (i : Nat) (b : List Byte) : i ≤ subpartFrom s i b := by
  induction b generalizing s i with
  | nil => rw [subpartFrom_nil h]
  | cons x xs ih =>
    by_cases hacc : delta s x = ACC
    · rw [subpartFrom_cons_of_accept hacc]; exact Nat.le_succ i
    by_cases herr : delta s x = ERR
    · rw [subpartFrom_cons_of_error herr]; exact le_max_left i 1
    · rw [subpartFrom_cons_of_pending hacc herr]; exact (Nat.le_succ i).trans (ih herr (i + 1))

/-- Bytes with neither an Accept point nor an error among them are all consumed. -/
theorem msl_eq_subpartFrom_of_passes {b : List Byte} {k : Nat} (hk : k ≤ b.length) (hla : lastAccept ACC b k = 0)
    (herr : ∀ j ≤ k, stateAt ACC b j ≠ ERR) : msl b = subpartFrom (stateAt ACC b k) k (b.drop k) := by
  have hpass := passesBytes_drop_lastAccept herr
  rw [hla, List.drop_zero, Nat.sub_zero] at hpass
  rw [msl_eq_scan, scan_eq_scanFrom hk hpass, hla, subpartFrom]

/-- `ERR` is absorbing, so a run that ends elsewhere never was there. -/
theorem stateAt_ne_error_of_le {s0 : Code} {b : List Byte} {k : Nat} (h : stateAt s0 b k ≠ ERR) :
    ∀ j ≤ k, stateAt s0 b j ≠ ERR := by
  intro j hj herr
  obtain ⟨n, rfl⟩ := Nat.exists_eq_add_of_le hj
  exact h (stateAt_add_of_error herr n)

/-- Settles O53: the kept bytes are short by R100, and `MSL` over them and the chunk gives at least them and at most both. -/
theorem resumePointLiesInChunk : Obligations.ResumePointLiesInChunk := by
  intro kept c hpend hla
  rw [← stateAt_length] at hpend
  have hshort := pending_length_le hpend
  rw [hla, Nat.sub_zero] at hshort
  have hend : stateAt ACC (kept ++ c) kept.length ≠ ERR := by
    rw [stateAt_append_of_le le_rfl]
    exact fun herr => absurd (herr ▸ hpend) (by decide)
  have hcovers : kept.length ≤ msl (kept ++ c) := by
    rw [msl_eq_subpartFrom_of_passes (by simp) ((lastAccept_append_of_le le_rfl c).trans hla)
      (stateAt_ne_error_of_le hend)]
    exact le_subpartFrom hend _ _
  obtain ⟨-, hmsl, -⟩ := maximalSubpartBounds (kept ++ c)
  rw [List.length_append] at hmsl
  exact ⟨hshort, hcovers, Nat.sub_le_iff_le_add'.mpr hmsl⟩

end Sys2Proof.Machine
end

section
/-! The invariants of R15 (spec/10_state.md section 2): reset meets them, every step keeps them, and under them no cycle
faults. -/

namespace Sys2Proof.Machine

/-! ## The codes of `S` and `SS`: clause (a) -/

theorem deltaFromAcc_le (b : Byte) : (deltaFromAcc b).toNat ≤ 8 := by
  revert b; decide

theorem delta_le (s : Code) (b : Byte) : (delta s b).toNat ≤ 8 := by
  rw [romImplementsGrammar s b, deltaRule]
  split_ifs
  case pos => exact deltaFromAcc_le b
  all_goals decide

/-- Every successor that a data instruction's row can give is one of the codes of R70. -/
theorem unpack_dataRow_le (i : Instr) (s : Code) : (unpack (dataRow i) s).toNat ≤ 8 := by
  cases i with
  | byte b => exact delta_le s b
  | _ => simp only [dataRow]; revert s; decide

theorem toNat_pos_of_ne_error {c : Code} (h : c ≠ ERR) : 1 ≤ c.toNat :=
  Nat.one_le_iff_ne_zero.mpr fun hzero => h (BitVec.eq_of_toNat_eq hzero)

theorem ne_error_of_toNat_pos {c : Code} (h : 1 ≤ c.toNat) : c ≠ ERR := by
  rintro rfl; exact absurd h (by decide)

theorem toNat_ACC_bounds : 1 ≤ ACC.toNat ∧ ACC.toNat ≤ 8 := by decide

/-- The arms of R184 leave in `SS` what it held, `ACC`, or a state that is not `ERR`. -/
theorem endResult_ssCode {w : Nat} {r : Regs w} (hr : r.Inv) {res : EndResult w} (h : endResult r = some res) :
    1 ≤ res.ss.toNat ∧ res.ss.toNat ≤ 8 := by
  by_cases hm : r.mode = opSCHK
  · obtain rfl := Option.some.inj ((endResult_of_schk hm).symm.trans h)
    unfold resultSchk
    split_ifs with hpos herr hacc hfin
    · exact hr.ssCode
    · exact toNat_ACC_bounds
    · exact toNat_ACC_bounds
    · exact toNat_ACC_bounds
    · exact ⟨toNat_pos_of_ne_error herr, hr.fsmCode⟩
  · rw [endResult_ss h hm]; exact hr.ssCode

/-! ## What the shared operations keep -/

section
variable {w : Nat} {r : Regs w}

theorem afterReset_inv (w : Nat) : (Regs.afterReset : Regs w).Inv where
  fsmCode := toNat_ACC_bounds.2
  ssCode := toNat_ACC_bounds
  acceptPoint _ := rfl
  laBound _ := BitVec.le_refl _
  errConsumed herr := absurd herr (ne_error_of_toNat_pos toNat_ACC_bounds.1)
  stopReason := nofun
  modeOpen hopen := absurd rfl hopen
  posCount := rfl
  errCount herr := absurd herr (ne_error_of_toNat_pos toNat_ACC_bounds.1)

/-- The invariant speaks of no result register, and of `SS` and `PH` only in clauses (a), (f) and R126's. -/
theorem Regs.Inv.of_same_cursor {r' : Regs w} (h : r.Inv) (hfsm : r'.fsm = r.fsm) (hpos : r'.pos = r.pos)
    (hla : r'.la = r.la) (hnlk : r'.nlk = r.nlk) (hss : 1 ≤ r'.ss.toNat ∧ r'.ss.toNat ≤ 8)
    (hph : r'.ph = .idle ∨ (r'.ph = r.ph ∧ r'.mode = r.mode)) : r'.Inv where
  fsmCode := by rw [hfsm]; exact h.fsmCode
  ssCode := hss
  acceptPoint := by rw [hfsm, hla, hpos]; exact h.acceptPoint
  laBound := by rw [hnlk, hla, hpos]; exact h.laBound
  errConsumed := by rw [hfsm, hnlk, hpos]; exact h.errConsumed
  stopReason hstop := by
    obtain hidle | ⟨hph, hmode⟩ := hph
    · exact absurd (hidle.symm.trans hstop) (by decide)
    · rw [hmode, hfsm]; exact h.stopReason (hph.symm.trans hstop)
  modeOpen hopen := by
    obtain hidle | ⟨hph, hmode⟩ := hph
    · exact absurd hidle hopen
    · rw [hmode]; exact h.modeOpen (hph ▸ hopen)
  posCount := by rw [hpos, hnlk]; exact h.posCount
  errCount := by rw [hfsm, hnlk]; exact h.errCount

theorem opened_inv {m s0 : Code} (hm : isBegin m = true) (hs0 : 1 ≤ s0.toNat ∧ s0.toNat ≤ 8) (f : Bool)
    (h : r.Inv) : (r.opened m s0 f).Inv where
  fsmCode := hs0.2
  ssCode := h.ssCode
  acceptPoint _ := rfl
  laBound _ := BitVec.le_refl _
  errConsumed herr := absurd herr (ne_error_of_toNat_pos hs0.1)
  stopReason := nofun
  modeOpen _ := hm
  posCount := rfl
  errCount herr := absurd herr (ne_error_of_toNat_pos hs0.1)

/-- Before it wraps, `POS` is the count of R131, and the next byte moves both by one. -/
theorem toNat_pos_add_one (h : r.Inv) (hbound : r.nlk + 1 < 2 ^ w) : (r.pos + 1).toNat = r.nlk + 1 := by
  have hcount : r.pos + 1 = BitVec.ofNat w (r.nlk + 1) := by rw [BitVec.ofNat_add, ← h.posCount]; rfl
  rw [hcount, BitVec.toNat_ofNat, Nat.mod_eq_of_lt hbound]

theorem consumed_inv {s' : Code} (hs' : s'.toNat ≤ 8) (hp : r.ph = .run) {stop : Bool}
    (hstop : stops r.mode s' = some stop) (h : r.Inv) : (r.consumed s' true stop).Inv where
  fsmCode := hs'
  ssCode := h.ssCode
  acceptPoint hacc := if_pos hacc
  laBound hbound := by
    have hpos : (r.pos + 1).toNat = r.nlk + 1 := toNat_pos_add_one h hbound
    have hla : r.la.toNat ≤ r.pos.toNat := h.laBound (Nat.lt_of_succ_lt hbound)
    have hcount : r.pos.toNat = r.nlk := by
      rw [h.posCount, BitVec.toNat_ofNat, Nat.mod_eq_of_lt (Nat.lt_of_succ_lt hbound)]
    rw [consumed_la, consumed_pos, BitVec.le_def]
    split
    · exact le_rfl
    · omega
  errConsumed _ hbound hzero := by
    have hpos : (r.pos + 1).toNat = r.nlk + 1 := toNat_pos_add_one h hbound
    rw [consumed_pos] at hzero
    rw [hzero] at hpos
    simp at hpos
  stopReason hph := by
    have hstopped : stop = true := by
      rw [consumed_ph, hp] at hph
      simpa using hph
    have hmode : isBegin r.mode = true := by rw [← stops_isSome r.mode s', hstop]; rfl
    have hnow : stopNow r.mode s' = true := (stopNow_of_stops hstop).trans hstopped
    rw [consumed_mode, consumed_fsm]
    obtain ⟨hm, herr⟩ | ⟨hm, herr | hacc⟩ := (stopNow_iff_of_isBegin hmode s').mp hnow
    · exact .inl ⟨by rcases hm with h | h | h <;> rw [h] <;> rfl, herr⟩
    · exact .inl ⟨by rw [hm]; rfl, herr⟩
    · exact .inr ⟨hm, hacc⟩
  modeOpen _ := h.modeOpen (by rw [hp]; decide)
  posCount := by rw [consumed_pos, h.posCount, consumed_nlk, if_pos rfl, BitVec.ofNat_add]; rfl
  errCount _ := by simp

end

/-! ## Every instruction and every step -/

theorem beginArgs_ssCode {ss : Code} (h : 1 ≤ ss.toNat ∧ ss.toNat ≤ 8) (i : Instr) :
    1 ≤ (beginArgs ss i).2.1.toNat ∧ (beginArgs ss i).2.1.toNat ≤ 8 := by
  cases i with
  | schk => exact h
  | _ => exact toNat_ACC_bounds

/-- R15 on the registers: whatever an instruction does to them keeps the invariant. -/
theorem Regs.Steps.inv {w : Nat} {i : Instr} {r r' : Regs w} (hstep : r.Steps i r') (h : r.Inv) : r'.Inv := by
  obtain ⟨-, rfl⟩ | ⟨-, ⟨-, -, rfl⟩ | ⟨-, -, rfl⟩ | ⟨-, hp, stop, hstop, rfl⟩ | ⟨-, -, rfl⟩ | ⟨-, -, res, hres, rfl⟩ |
    ⟨-, rfl⟩⟩ := hstep
  · exact h.of_same_cursor rfl rfl rfl rfl h.ssCode (.inr ⟨rfl, rfl⟩)
  · exact opened_inv (isBegin_beginArgs r.ss i) (beginArgs_ssCode h.ssCode i) _ h
  · exact h.of_same_cursor rfl rfl rfl rfl toNat_ACC_bounds (.inr ⟨rfl, rfl⟩)
  · exact consumed_inv (unpack_dataRow_le i r.fsm) hp hstop h
  · exact h
  · exact h.of_same_cursor rfl rfl rfl rfl (endResult_ssCode h hres) (.inl rfl)
  · exact h

theorem exec_keeps_inv {i : Instr} {s t : State} (h : exec i s = .next t) (hs : s.Inv) : t.Inv := by
  obtain ⟨r, rfl, hr⟩ := exec_cases h
  exact ⟨hs.1, hr.inv hs.2⟩

/-- Settles O3: a reset cycle gives the registers of R27, an idle one changes none, and a beat is an instruction. -/
theorem stepKeepsInvariant : Obligations.StepKeepsInvariant := by
  intro s t hs h
  obtain ⟨-, rfl⟩ | ⟨c, rest, -, ⟨-, rfl⟩ | ⟨-, -, rfl⟩ | ⟨-, -, hexec⟩⟩ := step_cases h
  · exact hs
  · exact ⟨hs.1, afterReset_inv s.lenw⟩
  · exact hs
  · exact exec_keeps_inv hexec hs

/-- Settles O2: the registers of R27 meet every clause at any width. -/
theorem resetMeetsInvariant : Obligations.ResetMeetsInvariant := fun w hw => ⟨hw, afterReset_inv w⟩

end Sys2Proof.Machine
end

section
/-! Decoding and encoding (spec/30_encoding.md R60 to R64, R73) are inverse to each other, and a cycle with a beat runs
the instruction the beat decodes to (spec/10_state.md R26). -/

namespace Sys2Proof.Machine

/-! ## Decoding an encoding -/

/-- R63: the flag of `SCHK` and its ignored bits are the whole operand. -/
theorem schkOperand_append (d : Byte) : d.extractLsb' 1 7 ++ BitVec.ofBool (d.getLsbD 0) = d := by
  revert d; decide

/-- Settles O10: a command is its opcode and operand, and a byte in the range of a class decodes to that class. -/
theorem decodeOfEncodeIsInstruction : Obligations.DecodeOfEncodeIsInstruction := by
  intro i hw
  cases i with
  | nop d => exact decodeBeat_append 0x0 d
  | wf d => exact decodeBeat_append 0x1 d
  | chk d => exact decodeBeat_append 0x2 d
  | msl d => exact decodeBeat_append 0x3 d
  | sinit d => exact decodeBeat_append 0x4 d
  | schk g f => exact decodeBeat_encode_schk g f
  | byte d => exact decodeBeat_append 0x6 d
  | endTx d => exact decodeBeat_append 0x7 d
  | reserved8 d => exact decodeBeat_append 0x8 d
  | wfct d => exact decodeBeat_append 0x9 d
  | chkct d => exact decodeBeat_append 0xA d
  | reservedB d => exact decodeBeat_append 0xB d
  | reservedC d => exact decodeBeat_append 0xC d
  | reservedD d => exact decodeBeat_append 0xD d
  | reservedE d => exact decodeBeat_append 0xE d
  | reservedF d => exact decodeBeat_append 0xF d
  | ascii | contA | contB | contC | badC0 | lead2 | lead3E0 | lead3 | lead3ED | lead4F0 | lead4 | lead4F4 | badF5 =>
    exact decodeClass_of_wellFormed hw rfl

/-! ## Encoding a decoded word -/

/-- R61, R64: the sixteen opcodes, for splits over `decodeCommand`. -/
theorem opcode_cases (op : Code) :
    op = 0x0 ∨ op = 0x1 ∨ op = 0x2 ∨ op = 0x3 ∨ op = 0x4 ∨ op = 0x5 ∨ op = 0x6 ∨ op = 0x7 ∨ op = 0x8 ∨ op = 0x9 ∨
      op = 0xA ∨ op = 0xB ∨ op = 0xC ∨ op = 0xD ∨ op = 0xE ∨ op = 0xF := by
  revert op; decide

/-- R61, R63, R64: the command of an opcode keeps the opcode and every bit of the operand. -/
theorem encode_decodeCommand (op : Code) (d : Byte) : encode (decodeCommand op d) = .b12 (op ++ d) := by
  rcases opcode_cases op with
    rfl | rfl | rfl | rfl | rfl | rfl | rfl | rfl | rfl | rfl | rfl | rfl | rfl | rfl | rfl | rfl
  any_goals rfl
  exact congrArg (fun x => Beat.b12 (0x5#4 ++ x)) (schkOperand_append d)

/-- R63: every operand of a command is legal. -/
theorem wellFormed_decodeCommand (op : Code) (d : Byte) : (decodeCommand op d).wellFormed = true := by
  rcases opcode_cases op with
    rfl | rfl | rfl | rfl | rfl | rfl | rfl | rfl | rfl | rfl | rfl | rfl | rfl | rfl | rfl | rfl
    <;> rfl

/-- R73: each byte lies in the range of the class it decodes to. -/
theorem wellFormed_decodeClass (b : Byte) : (decodeClass b).wellFormed = true := by
  revert b; decide

/-- Settles O11, for each of the two formats. -/
theorem encodeOfDecodeIsWord : Obligations.EncodeOfDecodeIsWord := by
  rintro (w | b)
  · refine ⟨wellFormed_decodeCommand _ _, ?_⟩
    rw [decodeBeat, encode_decodeCommand, opField_append_datField]
  · exact ⟨wellFormed_decodeClass b, encode_decodeClass b⟩

/-- Settles O13, word by word. -/
theorem sampleWordsDecode : Obligations.SampleWordsDecode := by
  unfold Obligations.SampleWordsDecode
  decide

/-! ## Cycles with and without a beat -/

/-- Settles O7: a presented beat is accepted, and a well-formed instruction's word decodes back to it. -/
theorem stepRunsDecodedBeat : Obligations.StepRunsDecodedBeat := by
  refine ⟨fun s x rest => step_present, fun s i rest hw hin => ?_⟩
  rw [step_present hin, decodeOfEncodeIsInstruction i hw]

theorem step_of_no_input {s : State} (h : s.input = []) : step s = .next s := by rw [step, h]

/-- R26: without `rst` and `in_valid` a cycle changes no register, whatever its beat. -/
theorem cycle_of_idle_port (x : Beat) (s : State) : cycle ⟨false, false, x⟩ s = .next s := rfl

/-- Settles O9, for a driven cycle and for one past the end of the driver's list. -/
theorem cycleWithoutBeatChangesNothing : Obligations.CycleWithoutBeatChangesNothing := by
  refine ⟨fun s x rest hin => ?_, fun s => step_of_no_input⟩
  rw [step_of_input hin, cycle_of_idle_port]

/-- Settles O14: no meaning reads an operand that its opcode ignores. -/
theorem ignoredOperandBitsHaveNoEffect : Obligations.IgnoredOperandBitsHaveNoEffect :=
  fun _ _ _ _ _ _ => ⟨rfl, rfl, rfl, rfl, rfl, rfl, rfl, rfl, rfl⟩

end Sys2Proof.Machine
end

section
/-! Data bytes by class (spec/40_transition_table.md R101 to R113): with `FASTPATH` false a data instruction is its row,
so that `BYTE` and the byte's class do the same. -/

namespace Sys2Proof.Machine

/-- Without the fast path a `BYTE` beat looks at nothing of its byte but the row. -/
theorem byteBeat_false_congr {w : Nat} (row : Row) (b c : Byte) (r : Regs w) :
    r.byteBeat false row b = r.byteBeat false row c := by
  cases h : r.ph with
  | idle => rw [byteBeat_of_idle _ _ _ _ h, byteBeat_of_idle _ _ _ _ h]
  | stop => rw [byteBeat_of_stop _ _ _ _ h, byteBeat_of_stop _ _ _ _ h]
  | run => rfl

/-- What a data instruction does depends on its row alone. -/
theorem exec_data_congr {i j : Instr} (hi : isData i = true) (hj : isData j = true) (hrow : dataRow i = dataRow j)
    (s : State) : exec i s = exec j s := by
  obtain ⟨b, hb⟩ := exec_data i s hi
  obtain ⟨c, hc⟩ := exec_data j s hj
  rw [hb, hc, hrow]
  exact congrArg s.outcome (byteBeat_false_congr (dataRow j) b c s.regs)

theorem isData_decodeClass (b : Byte) : isData (decodeClass b) = true := by
  revert b; decide

/-- Settles O18: the row that the ROM lists for a byte is the row of the byte's class. -/
theorem byteDoesWhatItsClassSays : Obligations.ByteDoesWhatItsClassSays :=
  fun b => exec_data_congr (i := .byte b) rfl (isData_decodeClass b) (romRead_eq_dataRow b)

theorem consumed_eq_steppedTo {w : Nat} {r : Regs w} (hp : r.ph = .run) (s' : Code) :
    r.consumed s' true (stopNow r.mode s') = r.steppedTo s' := by
  rw [Regs.consumed, Regs.steppedTo, hp]; rfl

/-- A data instruction in `RUN` steps the FSM as the rule of its class says, when its row is that of a byte `c` of the
class. -/
theorem exec_data_of_class_rule {i j : Instr} {s : State} (hd : isData i = true) (hp : s.regs.ph = .run)
    (hm : isBegin s.regs.mode = true) {c : Byte} {row : Row} {next : Code → Code}
    (hrule : decodeClass c = j ∧ romRead c = row ∧ ∀ a, delta a c = next a) (hrow : dataRow i = row) :
    exec i s = .next (s.withRegs (s.regs.steppedTo (next s.regs.fsm))) := by
  obtain ⟨-, hread, hnext⟩ := hrule
  have hsucc : unpack (dataRow i) s.regs.fsm = next s.regs.fsm := by rw [hrow, ← hread, ← hnext, delta]
  rw [exec_data_of_run hd hp (stops_of_isBegin hm _), hsucc, consumed_eq_steppedTo hp]

/-- Settles O32, by the rules of the classes; with `FASTPATH` false an ASCII byte is looked up as every other is. -/
theorem classBeatsStepFsm : Obligations.ClassBeatsStepFsm := by
  obtain ⟨hascii, hcontA, hcontB, hcontC, hbadC0⟩ := asciiContinuationAndC0Classes
  obtain ⟨hlead2, hlead3E0, hlead3, hlead3ED, hlead4F0, hlead4, hlead4F4, hbadF5⟩ := leadAndF5Classes
  refine fun b s hp hm => ⟨?_, ?_, ?_, ?_, ?_, ?_, ?_, ?_, ?_, ?_, ?_, ?_, ?_⟩
  · exact exec_data_of_class_rule (i := .ascii b) rfl hp hm (hascii 0x00 rfl) rfl
  · exact exec_data_of_class_rule (i := .contA b) rfl hp hm (hcontA 0x80 rfl) rfl
  · exact exec_data_of_class_rule (i := .contB b) rfl hp hm (hcontB 0x90 rfl) rfl
  · exact exec_data_of_class_rule (i := .contC b) rfl hp hm (hcontC 0xA0 rfl) rfl
  · exact exec_data_of_class_rule (i := .badC0 b) rfl hp hm (hbadC0 0xC0 rfl) rfl
  · exact exec_data_of_class_rule (i := .lead2 b) rfl hp hm (hlead2 0xC2 rfl) rfl
  · exact exec_data_of_class_rule (i := .lead3E0) rfl hp hm hlead3E0 rfl
  · exact exec_data_of_class_rule (i := .lead3 b) rfl hp hm (hlead3 0xE1 rfl) rfl
  · exact exec_data_of_class_rule (i := .lead3ED) rfl hp hm hlead3ED rfl
  · exact exec_data_of_class_rule (i := .lead4F0) rfl hp hm hlead4F0 rfl
  · exact exec_data_of_class_rule (i := .lead4 b) rfl hp hm (hlead4 0xF1 rfl) rfl
  · exact exec_data_of_class_rule (i := .lead4F4) rfl hp hm hlead4F4 rfl
  · exact exec_data_of_class_rule (i := .badF5 b) rfl hp hm (hbadF5 0xF5 rfl) rfl

end Sys2Proof.Machine
end

section
/-! Runs from states that meet the invariant (spec/60_exceptions.md R221): no cycle faults or is refused, and the width
stays what it was. -/

namespace Sys2Proof.Machine

theorem byteBeat_completes {w : Nat} (fast : Bool) (row : Row) (b : Byte) {r : Regs w}
    (h : r.ph ≠ .idle → isBegin r.mode = true) : ∃ t, r.byteBeat fast row b = .ok t := by
  cases hp : r.ph with
  | idle => exact ⟨_, byteBeat_of_idle _ _ _ _ hp⟩
  | stop => exact ⟨_, byteBeat_of_stop _ _ _ _ hp⟩
  | run => exact ⟨_, byteBeat_of_run _ _ _ _ hp _ (stops_of_isBegin (h (by rw [hp]; decide)) _)⟩

theorem endBeat_completes {w : Nat} {r : Regs w} (h : r.ph ≠ .idle → isBegin r.mode = true) :
    ∃ t, r.endBeat = .ok t := by
  by_cases hp : r.ph = .idle
  · exact ⟨_, endBeat_of_idle r hp⟩
  · obtain ⟨res, hend⟩ := endBeat_of_isBegin hp (h hp)
    exact ⟨_, hend⟩

theorem outcome_completes (s : State) {o : Except Fault (Regs s.lenw)} (h : ∃ r, o = .ok r) :
    ∃ t, s.outcome o = .next t := by
  obtain ⟨r, rfl⟩ := h
  exact ⟨_, outcome_ok s r⟩

/-- R126, R128: the one fault needs an open transaction whose `MODE` is no begin opcode. -/
theorem exec_completes (i : Instr) {s : State} (h : s.regs.ph ≠ .idle → isBegin s.regs.mode = true) :
    ∃ t, exec i s = .next t := by
  cases i with
  | byte | ascii | contA | contB | contC | badC0 | lead2 | lead3E0 | lead3 | lead3ED | lead4F0 | lead4 | lead4F4
  | badF5 => exact outcome_completes s (byteBeat_completes _ _ _ h)
  | endTx => exact outcome_completes s (endBeat_completes h)
  | _ => exact ⟨_, rfl⟩

/-- Settles O4: a cycle of reset or without a beat never faults, and in an open transaction the invariant gives `MODE` a
begin opcode. -/
theorem stepCompletesUnderInvariant : Obligations.StepCompletesUnderInvariant := by
  intro s hs
  cases hin : s.input with
  | nil => exact ⟨s, step_of_no_input hin⟩
  | cons c rest =>
    rw [step_of_input hin, cycle]
    split_ifs
    · exact ⟨_, rfl⟩
    · exact exec_completes _ hs.2.modeOpen
    · exact ⟨_, rfl⟩

theorem exec_lenw {i : Instr} {s t : State} (h : exec i s = .next t) : t.lenw = s.lenw := by
  obtain ⟨r, rfl, -⟩ := exec_cases h
  rfl

/-- R5: no step changes the parameter. -/
theorem step_lenw {s t : State} (h : step s = .next t) : t.lenw = s.lenw := by
  obtain ⟨-, rfl⟩ | ⟨c, rest, -, ⟨-, rfl⟩ | ⟨-, -, rfl⟩ | ⟨-, -, hexec⟩⟩ := step_cases h
  · rfl
  · rfl
  · rfl
  · exact exec_lenw (s := { s with input := rest }) hexec

/-- A run from a state that meets the invariant goes on, at the same width, and meets it again. -/
theorem run_of_inv (n : Nat) {s : State} (hs : s.Inv) :
    ∃ t : State, Sys2Proof.core.run n s = .next t ∧ t.lenw = s.lenw ∧ t.Inv := by
  induction n generalizing s with
  | zero => exact ⟨s, rfl, rfl, hs⟩
  | succ n ih =>
    obtain ⟨u, hu⟩ := stepCompletesUnderInvariant s hs
    obtain ⟨t, hrun, hwidth, ht⟩ := ih (stepKeepsInvariant s u hs hu)
    exact ⟨t, (run_succ_of_next n hu).trans hrun, hwidth.trans (step_lenw hu), ht⟩

/-- Settles O5: the reset state meets the invariant, which says nothing of the cycles to come. -/
theorem everyRunFromResetMeetsInvariant : Obligations.EveryRunFromResetMeetsInvariant := by
  intro w cs n hw
  exact run_of_inv n (s := { State.resetAt w with input := cs }) (resetMeetsInvariant w hw)

end Sys2Proof.Machine
end

section
/-! Which instructions write which registers (spec/10_state.md sections 2 and 4), by what an instruction can do to the
registers. -/

namespace Sys2Proof.Machine

section
variable {w : Nat} {i : Instr} {r r' : Regs w}

/-- R12, R190. -/
theorem Regs.Steps.ss_ne (h : r.Steps i r') (hne : r'.ss ≠ r.ss) :
    ((∃ d, i = .sinit d) ∧ r.ph = .idle) ∨ ((∃ d, i = .endTx d) ∧ r.ph ≠ .idle ∧ r.mode = opSCHK) := by
  obtain ⟨-, rfl⟩ | ⟨-, ⟨-, -, rfl⟩ | ⟨hi, hp, rfl⟩ | ⟨-, -, stop, -, rfl⟩ | ⟨-, -, rfl⟩ | ⟨hi, hp, res, hres, rfl⟩ |
    ⟨-, rfl⟩⟩ := h
  any_goals exact absurd rfl hne
  · exact .inl ⟨hi, hp⟩
  · exact .inr ⟨hi, hp, by_contra fun hm => hne (endResult_ss hres hm)⟩

/-- R21, `R_ERR` and `R_LEN`. -/
theorem Regs.Steps.result_eq (h : r.Steps i r') (hno : ¬(ends i = true ∧ r.ph ≠ .idle)) :
    r'.rErr = r.rErr ∧ r'.rLen = r.rLen := by
  obtain ⟨-, rfl⟩ | ⟨-, ⟨-, -, rfl⟩ | ⟨-, -, rfl⟩ | ⟨-, -, stop, -, rfl⟩ | ⟨-, -, rfl⟩ | ⟨⟨d, rfl⟩, hp, res, -, rfl⟩ |
    ⟨-, rfl⟩⟩ := h
  any_goals exact ⟨rfl, rfl⟩
  exact absurd ⟨rfl, hp⟩ hno

/-- R11, R13, R14, R19, R20: neither a begin command nor a data byte. -/
theorem Regs.Steps.cursor_eq (h : r.Steps i r') (hb : ¬(begins i = true ∧ r.ph = .idle)) :
    (r'.mode = r.mode ∧ r'.fin = r.fin) ∧ (¬(isData i = true ∧ r.ph = .run) →
      r'.fsm = r.fsm ∧ r'.pos = r.pos ∧ r'.la = r.la ∧ r'.nlk = r.nlk) := by
  obtain ⟨-, rfl⟩ | ⟨-, ⟨hi, hp, rfl⟩ | ⟨-, -, rfl⟩ | ⟨hi, hp, stop, -, rfl⟩ | ⟨-, -, rfl⟩ | ⟨-, -, res, -, rfl⟩ |
    ⟨-, rfl⟩⟩ := h
  any_goals exact ⟨⟨rfl, rfl⟩, fun _ => ⟨rfl, rfl, rfl, rfl⟩⟩
  · exact absurd ⟨hi, hp⟩ hb
  · exact ⟨⟨rfl, rfl⟩, fun hd => absurd ⟨hi, hp⟩ hd⟩

/-- R21, `R_DONE`: with `PH` it follows the begin commands and `END` alone. -/
theorem Regs.Steps.rDone_eq (h : r.Steps i r') :
    r'.rDone = if begins i ∧ r.ph = .idle then false else if ends i ∧ r.ph ≠ .idle then true else r.rDone := by
  obtain ⟨hv, rfl⟩ | ⟨-, ⟨hb, hp, rfl⟩ | ⟨⟨d, rfl⟩, hp, rfl⟩ | ⟨hd, hp, stop, -, rfl⟩ | ⟨hd, hp, rfl⟩ |
    ⟨⟨d, rfl⟩, hp, res, -, rfl⟩ | ⟨⟨d, rfl⟩, rfl⟩⟩ := h
  · cases hp : r.ph with
    | idle => rw [hp] at hv; simp [begins_eq_false_of_violation hv]
    | run => simp [ends_eq_false_of_violation hv (by simp [hp])]
    | stop => simp [ends_eq_false_of_violation hv (by simp [hp])]
  · simp [hb, hp]
  · simp [begins, hp]
  · simp [ends_eq_false_of_isData hd, hp]
  · simp [ends_eq_false_of_isData hd, hp]
  · simp [begins, ends, hp]
  · simp [begins, ends]

end

/-- Settles O36, by what an instruction can do to the registers. -/
theorem onlyStreamingWritesStreamState : Obligations.OnlyStreamingWritesStreamState := by
  intro i s t h hne
  obtain ⟨r, rfl, hr⟩ := exec_cases h
  exact hr.ss_ne hne

/-- Settles O37, by what an instruction can do to the registers. -/
theorem onlyEndWritesResult : Obligations.OnlyEndWritesResult := by
  intro i s t h
  obtain ⟨r, rfl, hr⟩ := exec_cases h
  exact ⟨r, rfl, hr.rDone_eq, hr.result_eq⟩

/-- Settles O38, by what an instruction can do to the registers. -/
theorem onlyBeginAndByteMoveCursor : Obligations.OnlyBeginAndByteMoveCursor := by
  intro i s t h
  obtain ⟨r, rfl, hr⟩ := exec_cases h
  exact ⟨r, rfl, fun hb => (hr.cursor_eq hb).1, fun hb => (hr.cursor_eq hb).2⟩

end Sys2Proof.Machine
end

section
/-! The width of the offsets (spec/00_scope.md R5) in what `END` answers and in what a step does: registers of two widths
that agree on everything but their offsets go on agreeing, since only the `SCHK` arm of `END` asks whether `POS` is 0
(R130). -/

namespace Sys2Proof.Machine

/-! ## What the result of `END` depends on (R128, R184) -/

section
variable {w w' : Nat} {r : Regs w} {r' : Regs w'} (hmode : r.mode = r'.mode) (hfsm : r.fsm = r'.fsm)
  (hfin : r.fin = r'.fin) (hzero : r.pos = 0 ↔ r'.pos = 0)
include hmode hfsm hfin hzero

/-- `R_ERR` is read off the mode, the flag, `S`, and whether `POS` is 0. -/
theorem endResult_err_congr : (endResult r).map EndResult.err = (endResult r').map EndResult.err := by
  simp only [endResult, resultWf, resultChk, resultMsl, resultSchk, hmode, hfsm, hfin, hzero,
    apply_ite (Option.map EndResult.err), apply_ite EndResult.err, Option.map_some, Option.map_none]

/-- So is the Stream State, but for the old one. -/
theorem endResult_ss_congr (hss : r.ss = r'.ss) :
    (endResult r).map EndResult.ss = (endResult r').map EndResult.ss := by
  simp only [endResult, resultWf, resultChk, resultMsl, resultSchk, hmode, hfsm, hfin, hzero, hss,
    apply_ite (Option.map EndResult.ss), apply_ite EndResult.ss, Option.map_some, Option.map_none]

end

/-! ## Instructions and steps at two widths -/

section
variable {w w' : Nat} {r x : Regs w} {r' : Regs w'} {i : Instr}

/-- R130 and R5: what an instruction can do at one width it can do at the other. -/
theorem Regs.Steps.other_width (h : r.Steps i x) (hcontrol : r.control = r'.control)
    (hzero : r.pos = 0 ↔ r'.pos = 0) : ∃ x' : Regs w', r'.Steps i x' ∧ x.control = x'.control := by
  have hph : r.ph = r'.ph := congrArg Regs.ph hcontrol
  have hmode : r.mode = r'.mode := congrArg Regs.mode hcontrol
  have hfsm : r.fsm = r'.fsm := congrArg Regs.fsm hcontrol
  have hss : r.ss = r'.ss := congrArg Regs.ss hcontrol
  have hfin : r.fin = r'.fin := congrArg Regs.fin hcontrol
  obtain ⟨hv, rfl⟩ | ⟨hv, h⟩ := h <;> rw [hph] at hv
  · exact ⟨r'.violation, .inl ⟨hv, rfl⟩, congrArg Regs.violation hcontrol⟩
  obtain ⟨hb, hp, rfl⟩ | ⟨hi, hp, rfl⟩ | ⟨hd, hp, stop, hs, rfl⟩ | ⟨hd, hp, rfl⟩ | ⟨hi, hp, res, hres, rfl⟩ |
    ⟨hi, rfl⟩ := h
  · refine ⟨_, .inr ⟨hv, .inl ⟨hb, hph ▸ hp, rfl⟩⟩, ?_⟩
    rw [hss]
    exact congrArg (Regs.opened _ _ _) hcontrol
  · exact ⟨_, .inr ⟨hv, .inr (.inl ⟨hi, hph ▸ hp, rfl⟩)⟩, congrArg (fun c : Regs 0 => { c with ss := ACC }) hcontrol⟩
  · rw [hmode, hfsm] at hs
    refine ⟨_, .inr ⟨hv, .inr (.inr (.inl ⟨hd, hph ▸ hp, stop, hs, rfl⟩))⟩, ?_⟩
    rw [hfsm]
    exact congrArg (fun c : Regs 0 => { c with
      fsm := unpack (dataRow i) r'.fsm, ph := if stop then .stop else c.ph, nlk := c.nlk + 1 }) hcontrol
  · exact ⟨_, .inr ⟨hv, .inr (.inr (.inr (.inl ⟨hd, hph ▸ hp, rfl⟩)))⟩, hcontrol⟩
  · have herr := endResult_err_congr hmode hfsm hfin hzero
    have hres' := endResult_ss_congr hmode hfsm hfin hzero hss
    rw [hres] at herr hres'
    obtain ⟨res', hend, hsame⟩ := Option.map_eq_some_iff.mp herr.symm
    rw [hend] at hres'
    refine ⟨_, .inr ⟨hv, .inr (.inr (.inr (.inr (.inl ⟨hi, hph ▸ hp, res', hend, rfl⟩))))⟩, ?_⟩
    have hleft : (r.closed res).control =
        { r.control with rErr := res.err, ss := res.ss, rDone := true, ph := .idle } := rfl
    rw [hleft, hcontrol, ← hsame, Option.some.inj hres']
    rfl
  · exact ⟨_, .inr ⟨hv, .inr (.inr (.inr (.inr (.inr ⟨hi, rfl⟩))))⟩, hcontrol⟩

end

/-- The same for an instruction of two machines; neither takes a cycle off its driver's list. -/
theorem exec_other_width {i : Instr} {s s' t : State} (h : exec i s = .next t)
    (hcontrol : s.regs.control = s'.regs.control) (hzero : s.regs.pos = 0 ↔ s'.regs.pos = 0)
    (hin : s.input = s'.input) :
    ∃ t', exec i s' = .next t' ∧ t.regs.control = t'.regs.control ∧ t.input = t'.input := by
  obtain ⟨r, rfl, hr⟩ := exec_cases h
  obtain ⟨r', hr', hsame⟩ := hr.other_width hcontrol hzero
  exact ⟨s'.withRegs r', exec_of_steps hr', hsame, hin⟩

/-- Settles O6: a step of the second machine does what the same cycle does to the first. -/
theorem widthIsFixedParameter : Obligations.WidthIsFixedParameter := by
  refine ⟨fun s t => step_lenw, fun s s' t hcontrol hzero hin h => ?_⟩
  obtain ⟨hnil, rfl⟩ | ⟨c, rest, hcons, hcycle⟩ := step_cases h
  · exact ⟨s', step_of_no_input (hin.symm.trans hnil), hcontrol, hin⟩
  rw [step_of_input (hin.symm.trans hcons), cycle]
  obtain ⟨hrst, rfl⟩ | ⟨hrst, hvalid, rfl⟩ | ⟨hrst, hvalid, hexec⟩ := hcycle
  · exact ⟨_, if_pos hrst, rfl, rfl⟩
  · simp only [hrst, hvalid, Bool.false_eq_true, if_false]
    exact ⟨_, rfl, hcontrol, rfl⟩
  · simp only [hrst, hvalid, Bool.false_eq_true, if_false, if_true]
    exact exec_other_width (s := { s with input := rest }) hexec hcontrol hzero rfl

end Sys2Proof.Machine
end

section
/-! What the ports show of timing (spec/45_constant_time.md R204): of two runs whose cycles differ in data bytes alone,
the instructions are of the same kind in every cycle, and `R_DONE`, `PERR` and whether `PH` is `IDLE` follow the kind
alone. -/

namespace Sys2Proof.Machine

/-! ## Instructions that differ in a data byte -/

/-- The same instruction, or two data bytes. -/
def SameKind (i j : Instr) : Prop := i = j ∨ (isData i = true ∧ isData j = true)

theorem begins_eq_false_of_isData {i : Instr} (h : isData i = true) : begins i = false := by
  cases i with
  | wf | chk | msl | schk | wfct | chkct => cases h
  | _ => rfl

/-- R227 V2: a data byte is a violation in `IDLE` and nowhere else. -/
theorem isViolation_of_isData {i : Instr} (h : isData i = true) (ph : Phase) :
    isViolation i ph = decide (ph = .idle) := by
  cases i with
  | byte | ascii | contA | contB | contC | badC0 | lead2 | lead3E0 | lead3 | lead3ED | lead4F0 | lead4 | lead4F4
  | badF5 => rfl
  | _ => cases h

/-- R227: which instructions are violations depends on whether a transaction is open, not on whether it has stopped. -/
theorem isViolation_congr (i : Instr) {ph ph' : Phase} (h : ph = .idle ↔ ph' = .idle) :
    isViolation i ph = isViolation i ph' := by
  cases i <;> simp [isViolation, h]

section
variable {i j : Instr} (h : SameKind i j)
include h

theorem SameKind.begins_eq : begins i = begins j := by
  obtain rfl | ⟨hi, hj⟩ := h
  · rfl
  · rw [begins_eq_false_of_isData hi, begins_eq_false_of_isData hj]

theorem SameKind.ends_eq : ends i = ends j := by
  obtain rfl | ⟨hi, hj⟩ := h
  · rfl
  · rw [ends_eq_false_of_isData hi, ends_eq_false_of_isData hj]

theorem SameKind.isViolation_eq {ph ph' : Phase} (hph : ph = .idle ↔ ph' = .idle) :
    isViolation i ph = isViolation j ph' := by
  obtain rfl | ⟨hi, hj⟩ := h
  · exact isViolation_congr i hph
  · rw [isViolation_of_isData hi, isViolation_of_isData hj, decide_eq_decide]; exact hph

end

/-! ## The registers behind the ports -/

/-- Two register files, of any widths, that show the same at the ports and agree on whether a transaction is open. -/
structure Regs.SameTiming {w w' : Nat} (r : Regs w) (r' : Regs w') : Prop where
  idle : r.ph = .idle ↔ r'.ph = .idle
  rDone : r.rDone = r'.rDone
  perr : r.perr = r'.perr

/-- R129: whether a transaction is open follows the begin commands and `END` alone. -/
theorem phaseAfter_eq_idle_iff (i : Instr) (ph : Phase) (m s' : Code) :
    phaseAfter i ph m s' = .idle ↔ if ph = .idle then begins i = false else ends i = true := by
  cases ph with
  | idle => cases hb : begins i <;> simp [phaseAfter, hb]
  | run =>
    cases hd : isData i with
    | true => cases hs : stopNow m s' <;> simp [phaseAfter, hd, hs, ends_eq_false_of_isData hd]
    | false => cases he : ends i <;> simp [phaseAfter, hd, he]
  | stop => cases he : ends i <;> simp [phaseAfter, he]

theorem Regs.Steps.sameTiming {w w' : Nat} {i j : Instr} {r x : Regs w} {r' x' : Regs w'} (h : r.Steps i x)
    (h' : r'.Steps j x') (hkind : SameKind i j) (hr : r.SameTiming r') : x.SameTiming x' where
  idle := by
    rw [h.ph_eq, h'.ph_eq, phaseAfter_eq_idle_iff, phaseAfter_eq_idle_iff, hkind.begins_eq, hkind.ends_eq]
    simp only [hr.idle]
  rDone := by
    rw [h.rDone_eq, h'.rDone_eq, hkind.begins_eq, hkind.ends_eq, hr.rDone]
    simp only [ne_eq, hr.idle]
  perr := by rw [h.perr_eq, h'.perr_eq, hkind.isViolation_eq hr.idle, hr.perr]

/-! ## Cycles, steps and runs -/

theorem sameKind_of_sameButData {c d : PortIn} (h : SameButData c d) :
    SameKind (decodeBeat c.beat) (decodeBeat d.beat) := by
  obtain ⟨-, -, hbeat | hdata⟩ := h
  · exact .inl (congrArg decodeBeat hbeat)
  · exact .inr hdata

theorem exec_sameTiming {i j : Instr} (hkind : SameKind i j) {s s' t t' : State} (hs : s.regs.SameTiming s'.regs)
    (h : exec i s = .next t) (h' : exec j s' = .next t') :
    t.regs.SameTiming t'.regs ∧ t.input = s.input ∧ t'.input = s'.input := by
  obtain ⟨r, rfl, hr⟩ := exec_cases h
  obtain ⟨r', rfl, hr'⟩ := exec_cases h'
  exact ⟨hr.sameTiming hr' hkind hs, rfl, rfl⟩

theorem cycle_sameTiming {c d : PortIn} (hcd : SameButData c d) {s s' t t' : State}
    (hs : s.regs.SameTiming s'.regs) (h : cycle c s = .next t) (h' : cycle d s' = .next t') :
    t.regs.SameTiming t'.regs ∧ t.input = s.input ∧ t'.input = s'.input := by
  have hkind := sameKind_of_sameButData hcd
  obtain ⟨hrst, hvalid, -⟩ := hcd
  rw [cycle] at h h'
  rw [← hrst, ← hvalid] at h'
  cases hr : c.rst with
  | true =>
    rw [hr] at h h'
    cases h
    cases h'
    exact ⟨⟨Iff.rfl, rfl, rfl⟩, rfl, rfl⟩
  | false =>
    rw [hr] at h h'
    cases hv : c.valid with
    | true => rw [hv] at h h'; exact exec_sameTiming hkind hs h h'
    | false =>
      rw [hv] at h h'
      cases h
      cases h'
      exact ⟨hs, rfl, rfl⟩

theorem step_sameTiming {s s' t t' : State} (hin : List.Forall₂ SameButData s.input s'.input)
    (hs : s.regs.SameTiming s'.regs) (h : step s = .next t) (h' : step s' = .next t') :
    t.regs.SameTiming t'.regs ∧ List.Forall₂ SameButData t.input t'.input := by
  cases hnext : s.input with
  | nil =>
    have hnil : s'.input = [] := List.forall₂_nil_left_iff.mp (hnext ▸ hin)
    rw [step_of_no_input hnext] at h
    rw [step_of_no_input hnil] at h'
    cases h
    cases h'
    exact ⟨hs, hin⟩
  | cons c rest =>
    obtain ⟨d, rest', hcd, hrest, hcons⟩ := List.forall₂_cons_left_iff.mp (hnext ▸ hin)
    rw [step_of_input hnext] at h
    rw [step_of_input hcons] at h'
    obtain ⟨ht, hleft, hright⟩ :=
      cycle_sameTiming (s := { s with input := rest }) (s' := { s' with input := rest' }) hcd hs h h'
    exact ⟨ht, by rw [hleft, hright]; exact hrest⟩

/-- Two such runs go on together: the invariant lets neither of them stop. -/
theorem run_sameTiming (n : Nat) {s s' : State} (hinv : s.Inv) (hinv' : s'.Inv)
    (hin : List.Forall₂ SameButData s.input s'.input) (hs : s.regs.SameTiming s'.regs) :
    ∃ t t' : State, Sys2Proof.core.run n s = .next t ∧ Sys2Proof.core.run n s' = .next t' ∧
      t.regs.SameTiming t'.regs := by
  induction n generalizing s s' with
  | zero => exact ⟨s, s', rfl, rfl, hs⟩
  | succ n ih =>
    obtain ⟨u, hu⟩ := stepCompletesUnderInvariant s hinv
    obtain ⟨u', hu'⟩ := stepCompletesUnderInvariant s' hinv'
    obtain ⟨htiming, hinput⟩ := step_sameTiming hin hs hu hu'
    rw [run_succ_of_next n hu, run_succ_of_next n hu']
    exact ih (stepKeepsInvariant s u hinv hu) (stepKeepsInvariant s' u' hinv' hu') hinput htiming

/-- Settles O56: the two runs agree on the registers behind the ports, and `in_ready` is constant. -/
theorem portTimingIgnoresData : Obligations.PortTimingIgnoresData := by
  intro s s' hinv hinv' hidle hdone hperr hin n
  obtain ⟨t, t', hrun, hrun', hsame⟩ := run_sameTiming n hinv hinv' hin ⟨hidle, hdone, hperr⟩
  exact ⟨t, t', hrun, hrun', rfl, hsame.rDone, hsame.perr⟩

end Sys2Proof.Machine
end

section
/-! A transaction computes `scan` (spec/41_sequencer.md R131), at every width and for either value of `FASTPATH`. -/

namespace Sys2Proof.Machine

/-- R128: `R_LEN` is read off the mode, the flag, `S`, `POS` and `LA`. -/
theorem endResult_len_congr {w : Nat} {r r' : Regs w} (hmode : r.mode = r'.mode) (hfsm : r.fsm = r'.fsm)
    (hfin : r.fin = r'.fin) (hpos : r.pos = r'.pos) (hla : r.la = r'.la) :
    (endResult r).map EndResult.len = (endResult r').map EndResult.len := by
  simp only [endResult, resultWf, resultChk, resultMsl, resultSchk, hmode, hfsm, hfin, hpos, hla,
    apply_ite (Option.map EndResult.len), apply_ite EndResult.len, Option.map_some, Option.map_none]

/-- `END` answers the same result from registers that agree on what a scan leaves, whatever else they hold. -/
theorem endResult_congr {w : Nat} {r r' : Regs w} (hmode : r.mode = r'.mode) (hfsm : r.fsm = r'.fsm)
    (hfin : r.fin = r'.fin) (hpos : r.pos = r'.pos) (hla : r.la = r'.la) {res : EndResult w}
    (h : endResult r = some res) :
    ∃ res', endResult r' = some res' ∧ res.err = res'.err ∧ res.len = res'.len ∧ (r.ss = r'.ss → res.ss = res'.ss) := by
  have hzero : r.pos = 0 ↔ r'.pos = 0 := by rw [hpos]
  have herr := endResult_err_congr hmode hfsm hfin hzero
  have hlen := endResult_len_congr hmode hfsm hfin hpos hla
  rw [h] at herr hlen
  obtain ⟨res', hres', herr'⟩ := Option.map_eq_some_iff.mp herr.symm
  rw [hres'] at hlen
  refine ⟨res', hres', herr'.symm, Option.some.inj hlen, fun hss => ?_⟩
  have hsame := endResult_ss_congr hmode hfsm hfin hzero hss
  rw [h, hres'] at hsame
  exact Option.some.inj hsame

/-- Settles O40: the bytes leave the registers of `scan`, whose offsets fit, and `END` reads no other register. -/
theorem transactionComputesScan : Obligations.TransactionComputesScan := by
  intro w fast m s0 f b hm hlen
  refine ⟨fun r hidle => ?_, fun r r' hidle hidle' => ?_⟩
  · rw [beginTx_of_idle m s0 f r hidle]
    obtain ⟨n, hfeed, hn⟩ := feed_opened fast b hm s0 f r
    obtain ⟨k, hk, broke, hscan⟩ := scan_eq_stateAt (stopNow m) s0 b
    have hpos := scan_pos_le (stopNow m) s0 b
    refine ⟨_, hfeed, rfl, toNat_ofNat_of_le (hpos.trans hlen), toNat_ofNat_of_le ?_, rfl, fun hf => hn (.inl hf), rfl,
      rfl, rfl, rfl, rfl, rfl, rfl⟩
    rw [hscan]
    exact (lastAccept_le s0 b k).trans (hk.trans hlen)
  · rw [beginTx_of_idle m s0 f r hidle, beginTx_of_idle m s0 f r' hidle']
    obtain ⟨n, hfeed, -⟩ := feed_opened fast b hm s0 f r
    obtain ⟨n', hfeed', -⟩ := feed_opened fast b hm s0 f r'
    set t := (r.opened m s0 f).scanned (scan s0 b (stopNow m)) n
    set t' := (r'.opened m s0 f).scanned (scan s0 b (stopNow m)) n'
    obtain ⟨res, hres⟩ := Option.isSome_iff_exists.mp ((endResult_isSome t).trans hm)
    obtain ⟨res', hres', herr, hlen', hss⟩ := endResult_congr (r := t) (r' := t') rfl rfl rfl rfl rfl hres
    exact ⟨t, t', _, _, hfeed, hfeed', endBeat_of_open t (scanned_ph_ne_idle _ _ _) res hres,
      endBeat_of_open t' (scanned_ph_ne_idle _ _ _) res' hres', rfl, herr, hlen', fun _ => hss⟩

end Sys2Proof.Machine
end

section
/-! Where an invalid buffer first goes wrong (spec/42_single_shot.md R155): no sequence begins after the last Accept
point. -/

namespace Sys2Proof.Machine

/-! ## Sequences take the FSM from `ACC` to `ACC` (R98, R99) -/

/-- What finishes a state's sequence takes it to `ACC`. -/
theorem runDelta_of_finishes {s : Code} {q : List Byte} (h : finishes s q = true) : runDelta s q = ACC := by
  induction q generalizing s with
  | nil => rw [finishes_nil] at h; exact of_decide_eq_true h
  | cons c q ih =>
    have hne : s ≠ ACC := by rintro rfl; exact absurd h (by simp [finishes])
    rw [finishes_of_ne hne, completes_cons hne] at h
    exact ih h

theorem runDelta_of_isShape {p : List Byte} (h : isShape p = true) : runDelta ACC p = ACC := by
  cases p with
  | nil => rfl
  | cons a q => rw [isShape_cons] at h; rw [runDelta_cons]; exact runDelta_of_finishes h

theorem length_pos_of_isShape {p : List Byte} (h : isShape p = true) : 0 < p.length := by
  cases p with
  | nil => cases h
  | cons a q => exact Nat.succ_pos _

/-! ## The obligation -/

theorem validate_fst_iff (b : List Byte) : (validate b).1 = true ↔ runDelta ACC b = ACC := by
  rw [validate_eq, ← stateAt_length]; exact decide_eq_true_iff

/-- The bytes before the last Accept point are valid. -/
theorem validate_take_lastAccept (b : List Byte) : (validate (b.take (lastAccept ACC b b.length))).1 = true :=
  (validate_fst_iff _).mpr (stateAt_lastAccept b b.length)

/-- A sequence after the last Accept point would end at a later one. -/
theorem isShape_drop_lastAccept (b : List Byte) (m : Nat) :
    isShape ((b.drop (lastAccept ACC b b.length)).take m) = false := by
  by_contra hshape
  rw [Bool.not_eq_false, List.take_eq_take_min] at hshape
  have hmore := length_pos_of_isShape hshape
  have hend := runDelta_of_isShape hshape
  set n := min m (b.drop (lastAccept ACC b b.length)).length with hn
  have hacc : stateAt ACC b (lastAccept ACC b b.length + n) = ACC := by rw [stateAt_add, stateAt_lastAccept, hend]
  rw [List.length_take] at hmore
  rw [List.length_drop] at hn
  exact stateAt_ne_accept_of_lastAccept_lt (s0 := ACC) (b := b) (k := b.length) (by omega) (by omega) hacc

/-- Settles O48: the length reported is the last Accept point, which is the end of a valid buffer and no other. -/
theorem prefixLengthLocatesMalformation : Obligations.PrefixLengthLocatesMalformation := by
  intro b
  have hsnd : (validate b).2 = lastAccept ACC b b.length := by rw [validate_eq]
  rw [hsnd, validate_fst_iff, ← Bool.not_eq_true, validate_fst_iff, ← stateAt_length]
  exact ⟨lastAccept_of_accept, fun hne =>
    ⟨lastAccept_lt_of_ne hne, validate_take_lastAccept b, isShape_drop_lastAccept b⟩⟩

end Sys2Proof.Machine
end

section
/-! The maximal subpart is the longest start of a sequence (spec/43_classifier.md R167 with R100): until the `MSL` scan
stops, the bytes consumed are the start of one sequence. -/

namespace Sys2Proof.Machine

section
variable {b : List Byte} {k : Nat}

/-- What makes the first bytes a sequence is what finishes the state they lead to, as long as no state before the last
of them is an Accept point or an error. -/
theorem isShape_take_succ_append (hk : k < b.length) (hpass : PassesBytes (stopNow opMSL) ACC b k) (q : List Byte) :
    isShape (b.take (k + 1) ++ q) = finishes (stateAt ACC b (k + 1)) q := by
  induction k generalizing q with
  | zero =>
    rw [List.take_succ_eq_append_getElem hk, stateAt_succ ACC b 0 hk]
    exact isShape_cons b[0] q
  | succ k ih =>
    have hne : stateAt ACC b (k + 1) ≠ ACC := fun h =>
      hpass k (Nat.lt_succ_self k) ((stopNow_opMSL_iff _).mpr (.inl h))
    rw [List.take_succ_eq_append_getElem hk, List.append_assoc, List.singleton_append,
      ih (Nat.lt_of_succ_lt hk) (fun j hj => hpass j (Nat.lt_succ_of_lt hj)), finishes_of_ne hne, completes_cons hne,
      stateAt_succ ACC b (k + 1) hk]

/-- A state that a byte leads to is named by R70, so it is pending unless it is `ACC` or `ERR`. -/
theorem isPending_stateAt_succ (hk : k < b.length) (hacc : stateAt ACC b (k + 1) ≠ ACC)
    (herr : stateAt ACC b (k + 1) ≠ ERR) : isPending (stateAt ACC b (k + 1)) = true := by
  have hle : (stateAt ACC b (k + 1)).toNat ≤ 8 := by rw [stateAt_succ ACC b k hk]; exact delta_le _ _
  revert hacc herr hle
  generalize stateAt ACC b (k + 1) = s
  revert s; decide

/-- Bytes that the `MSL` scan goes past begin a sequence. -/
theorem exists_isShape_take_append (hk : k ≤ b.length) (hpass : PassesBytes (stopNow opMSL) ACC b k) (hpos : k ≠ 0) :
    ∃ q, isShape (b.take k ++ q) = true := by
  obtain ⟨j, rfl⟩ := Nat.exists_eq_succ_of_ne_zero hpos
  have hgo := hpass j (Nat.lt_succ_self j)
  rw [stopNow_opMSL_iff, not_or] at hgo
  obtain ⟨hacc, herr⟩ := hgo
  obtain ⟨q, -, hq⟩ := exists_completes_of_isPending (isPending_stateAt_succ hk hacc herr)
  refine ⟨q, ?_⟩
  rw [Nat.succ_eq_add_one, isShape_take_succ_append hk (fun i hi => hpass i (Nat.lt_succ_of_lt hi)),
    finishes_of_ne hacc, hq]

/-- No more bytes than those up to the stop begin a sequence: it is broken there, or complete. -/
theorem isShape_take_append_of_stop {i : Nat} (hi : i < b.length) (hpass : PassesBytes (stopNow opMSL) ACC b i)
    (hik : i < k) (hk : k ≤ b.length) (hs : stateAt ACC b (i + 1) = ERR ∨ (stateAt ACC b (i + 1) = ACC ∧ i + 1 < k))
    (q : List Byte) : isShape (b.take k ++ q) = false := by
  obtain ⟨n, rfl⟩ := Nat.exists_eq_add_of_le (Nat.succ_le_of_lt hik)
  rw [List.take_add, List.append_assoc, isShape_take_succ_append hi hpass]
  obtain herr | ⟨hacc, hlt⟩ := hs
  · rw [herr]; rfl
  · have hmore : (b.drop (i + 1)).take n ≠ [] := by
      rw [ne_eq, ← List.length_eq_zero_iff, List.length_take, List.length_drop]
      omega
    rw [hacc, finishes, if_pos rfl, List.isEmpty_eq_false_iff]
    exact List.append_ne_nil_of_left_ne_nil hmore q

end

theorem msl_of_first_accept {b : List Byte} {i : Nat} (hi : i < b.length) (hacc : stateAt ACC b (i + 1) = ACC)
    (hpass : PassesBytes (stopNow opMSL) ACC b i) : msl b = i + 1 := by
  rw [msl_eq_scan, scan_of_first_stop hi hpass ((stopNow_opMSL_iff _).mpr (.inl hacc)),
    subpartLength_of_ne (hacc.trans_ne (by decide))]

/-- A scan of some bytes that never stops ends after them in a state that is not `ERR`. -/
theorem msl_of_passes {b : List Byte} (hpos : b.length ≠ 0) (hpass : PassesBytes (stopNow opMSL) ACC b b.length) :
    msl b = b.length := by
  refine msl_of_never_stopped (fun herr => ?_) hpass
  obtain ⟨n, hn⟩ := Nat.exists_eq_succ_of_ne_zero hpos
  rw [hn] at hpass herr
  exact hpass n (Nat.lt_succ_self n) ((stopNow_opMSL_iff _).mpr (.inr herr))

/-- Settles O51: the scan stops at a complete sequence, at a byte that breaks one, or with the buffer. -/
theorem maximalSubpartIsLongestPrefix : Obligations.MaximalSubpartIsLongestPrefix := by
  intro b hb
  rcases exists_first_stop_or_passes (stopNow opMSL) ACC b with ⟨i, hi, hpass, hs⟩ | hpass
  · rcases (stopNow_opMSL_iff _).mp hs with hacc | herr
    · have hmsl : msl b = i + 1 := msl_of_first_accept hi hacc hpass
      rw [hmsl]
      refine ⟨.inl ⟨[], ?_⟩, fun k hlt hle => ?_⟩
      · rw [isShape_take_succ_append hi hpass, hacc]; rfl
      · exact isShape_take_append_of_stop hi hpass (Nat.lt_of_succ_lt hlt) hle (.inr ⟨hacc, hlt⟩)
    · have hmsl : msl b = max i 1 := msl_of_first_error hi herr hpass
      rw [hmsl]
      refine ⟨?_, fun k hlt hle => ?_⟩
      · rcases Nat.eq_zero_or_pos i with rfl | hpos
        · exact .inr rfl
        · rw [max_eq_left hpos]
          exact .inl (exists_isShape_take_append hi.le hpass hpos.ne')
      · exact isShape_take_append_of_stop hi hpass ((le_max_left i 1).trans_lt hlt) hle (.inl herr)
  · have hpos : b.length ≠ 0 := mt List.length_eq_zero_iff.mp hb
    rw [msl_of_passes hpos hpass]
    exact ⟨.inl (exists_isShape_take_append le_rfl hpass hpos), fun k hlt hle => absurd hlt hle.not_gt⟩

end Sys2Proof.Machine
end

section
/-! Accepted buffers (spec/40_transition_table.md R98, R99; spec/42_single_shot.md R155): the concatenations of sequences
of the eight shapes, which are those of encodings of scalar values. -/

namespace Sys2Proof.Machine

/-! ## Concatenations of sequences -/

theorem isShapeConcat_nil : IsShapeConcat [] := ⟨[], List.forall_mem_nil _, rfl⟩

theorem IsShapeConcat.append_left {b : List Byte} (h : IsShapeConcat b) {p : List Byte} (hp : isShape p = true) :
    IsShapeConcat (p ++ b) := by
  obtain ⟨parts, hparts, rfl⟩ := h
  exact ⟨p :: parts, List.forall_mem_cons.mpr ⟨hp, hparts⟩, rfl⟩

theorem runDelta_of_isShapeConcat {b : List Byte} (h : IsShapeConcat b) : runDelta ACC b = ACC := by
  obtain ⟨parts, hparts, rfl⟩ := h
  induction parts with
  | nil => rfl
  | cons p ps ih =>
    obtain ⟨hp, hps⟩ := List.forall_mem_cons.mp hparts
    rw [List.flatten_cons, runDelta_append, runDelta_of_isShape hp, ih hps]

/-- A run that ends in `ACC` first finishes the sequence it starts in, and the rest is whole sequences. -/
theorem exists_finishes_append_of_accept {s : Code} {b : List Byte} (h : runDelta s b = ACC) :
    ∃ q rest, q ++ rest = b ∧ finishes s q = true ∧ IsShapeConcat rest := by
  induction b generalizing s with
  | nil => exact ⟨[], [], rfl, by rw [finishes_nil]; exact decide_eq_true h, isShapeConcat_nil⟩
  | cons c cs ih =>
    obtain ⟨q, rest, rfl, hq, hrest⟩ := ih (s := delta s c) h
    by_cases hs : s = ACC
    · subst hs
      exact ⟨[], _, rfl, rfl, hrest.append_left (p := c :: q) (by rw [isShape_cons, hq])⟩
    · exact ⟨c :: q, rest, rfl, by rw [finishes_of_ne hs, completes_cons hs, hq], hrest⟩

/-- Settles O19: from `ACC` there is nothing to finish, so all of an accepted buffer is whole sequences. -/
theorem fsmAcceptsShapeConcats : Obligations.FsmAcceptsShapeConcats := by
  refine fun b => ⟨fun h => ?_, runDelta_of_isShapeConcat⟩
  obtain ⟨q, rest, rfl, hq, hrest⟩ := exists_finishes_append_of_accept h
  have hnil : q = [] := List.isEmpty_iff.mp hq
  rw [hnil]
  exact hrest

/-! ## A sequence is the encoding of a scalar value -/

theorem within_iff (lo hi b : Byte) : Byte.within lo hi b = true ↔ lo.toNat ≤ b.toNat ∧ b.toNat ≤ hi.toNat := by
  simp [Byte.within, BitVec.le_def]

theorem isScalar_iff (c : Nat) : isScalar c = true ↔ c < 0xD800 ∨ (0xE000 ≤ c ∧ c < 0x110000) := by
  simp [isScalar]

theorem isCont_iff (b : Byte) : isCont b = true ↔ 0x80 ≤ b.toNat ∧ b.toNat ≤ 0xBF := within_iff 0x80 0xBF b

theorem ofNat_eq_iff (n : Nat) (b : Byte) : BitVec.ofNat 8 n = b ↔ n % 256 = b.toNat := by
  rw [← BitVec.toNat_inj, BitVec.toNat_ofNat]

/-! ### The shapes of R99 and the encodings, by their length, on the values of the bytes -/

theorem isShape_one_iff (a : Byte) : isShape [a] = true ↔ a.toNat ≤ 0x7F := by
  simp [isShape, within_iff]

theorem isShape_two_iff (a b : Byte) :
    isShape [a, b] = true ↔ (0xC2 ≤ a.toNat ∧ a.toNat ≤ 0xDF) ∧ 0x80 ≤ b.toNat ∧ b.toNat ≤ 0xBF := by
  simp [isShape, within_iff, isCont_iff]

theorem isShape_three_iff (a b c : Byte) :
    isShape [a, b, c] = true ↔
      ((a.toNat = 0xE0 ∧ 0xA0 ≤ b.toNat ∧ b.toNat ≤ 0xBF) ∨
        (((0xE1 ≤ a.toNat ∧ a.toNat ≤ 0xEC) ∨ (0xEE ≤ a.toNat ∧ a.toNat ≤ 0xEF)) ∧ 0x80 ≤ b.toNat ∧ b.toNat ≤ 0xBF) ∨
        (a.toNat = 0xED ∧ 0x80 ≤ b.toNat ∧ b.toNat ≤ 0x9F)) ∧ 0x80 ≤ c.toNat ∧ c.toNat ≤ 0xBF := by
  simp [isShape, within_iff, isCont_iff, ← BitVec.toNat_inj, or_assoc]

theorem isShape_four_iff (a b c d : Byte) :
    isShape [a, b, c, d] = true ↔
      (((a.toNat = 0xF0 ∧ 0x90 ≤ b.toNat ∧ b.toNat ≤ 0xBF) ∨
        ((0xF1 ≤ a.toNat ∧ a.toNat ≤ 0xF3) ∧ 0x80 ≤ b.toNat ∧ b.toNat ≤ 0xBF) ∨
        (a.toNat = 0xF4 ∧ 0x80 ≤ b.toNat ∧ b.toNat ≤ 0x8F)) ∧ 0x80 ≤ c.toNat ∧ c.toNat ≤ 0xBF) ∧
        0x80 ≤ d.toNat ∧ d.toNat ≤ 0xBF := by
  simp [isShape, within_iff, isCont_iff, ← BitVec.toNat_inj, or_assoc]

theorem encodeScalar_eq_one {n : Nat} (h : n < 0x80) : encodeScalar n = [BitVec.ofNat 8 n] := if_pos h

theorem encodeScalar_eq_two {n : Nat} (h : 0x80 ≤ n) (h' : n < 0x800) :
    encodeScalar n = [BitVec.ofNat 8 (0xC0 + n / 64), BitVec.ofNat 8 (0x80 + n % 64)] := by
  rw [encodeScalar, if_neg (by omega), if_pos h']

theorem encodeScalar_eq_three {n : Nat} (h : 0x800 ≤ n) (h' : n < 0x10000) :
    encodeScalar n =
      [BitVec.ofNat 8 (0xE0 + n / 4096), BitVec.ofNat 8 (0x80 + n / 64 % 64), BitVec.ofNat 8 (0x80 + n % 64)] := by
  rw [encodeScalar, if_neg (by omega), if_neg (by omega), if_pos h']

theorem encodeScalar_eq_four {n : Nat} (h : 0x10000 ≤ n) :
    encodeScalar n =
      [BitVec.ofNat 8 (0xF0 + n / 262144), BitVec.ofNat 8 (0x80 + n / 4096 % 64),
        BitVec.ofNat 8 (0x80 + n / 64 % 64), BitVec.ofNat 8 (0x80 + n % 64)] := by
  rw [encodeScalar, if_neg (by omega), if_neg (by omega), if_neg (by omega)]

/-! ### Both directions -/

theorem isShape_encodeScalar {n : Nat} (h : isScalar n = true) : isShape (encodeScalar n) = true := by
  rw [isScalar_iff] at h
  rcases lt_or_ge n 0x80 with h1 | h1
  · rw [encodeScalar_eq_one h1, isShape_one_iff, BitVec.toNat_ofNat]
    omega
  rcases lt_or_ge n 0x800 with h2 | h2
  · rw [encodeScalar_eq_two h1 h2, isShape_two_iff, BitVec.toNat_ofNat, BitVec.toNat_ofNat]
    omega
  rcases lt_or_ge n 0x10000 with h3 | h3
  · rw [encodeScalar_eq_three h2 h3, isShape_three_iff]
    simp only [BitVec.toNat_ofNat]
    omega
  · rw [encodeScalar_eq_four h3, isShape_four_iff]
    simp only [BitVec.toNat_ofNat]
    omega

/-- The scalar value has the low bits of the continuation bytes, six each, and the rest from the lead byte. -/
theorem exists_scalar_of_isShape {p : List Byte} (h : isShape p = true) :
    ∃ n, isScalar n = true ∧ encodeScalar n = p := by
  simp only [isScalar_iff]
  rcases p with _ | ⟨a, _ | ⟨b, _ | ⟨c, _ | ⟨d, _ | ⟨e, p⟩⟩⟩⟩⟩
  · cases h
  · rw [isShape_one_iff] at h
    refine ⟨a.toNat, by omega, ?_⟩
    rw [encodeScalar_eq_one (by omega)]
    simp only [List.cons.injEq, ofNat_eq_iff, and_true]
    omega
  · rw [isShape_two_iff] at h
    refine ⟨(a.toNat - 0xC0) * 64 + (b.toNat - 0x80), by omega, ?_⟩
    rw [encodeScalar_eq_two (by omega) (by omega)]
    simp only [List.cons.injEq, ofNat_eq_iff, and_true]
    omega
  · rw [isShape_three_iff] at h
    refine ⟨(a.toNat - 0xE0) * 4096 + (b.toNat - 0x80) * 64 + (c.toNat - 0x80), by omega, ?_⟩
    rw [encodeScalar_eq_three (by omega) (by omega)]
    simp only [List.cons.injEq, ofNat_eq_iff, and_true]
    omega
  · rw [isShape_four_iff] at h
    refine ⟨(a.toNat - 0xF0) * 262144 + (b.toNat - 0x80) * 4096 + (c.toNat - 0x80) * 64 + (d.toNat - 0x80),
      by omega, ?_⟩
    rw [encodeScalar_eq_four (by omega)]
    simp only [List.cons.injEq, ofNat_eq_iff, and_true]
    omega
  · cases h

/-- R98: the parts of a concatenation are encodings one by one. -/
theorem isShapeConcat_iff (b : List Byte) :
    IsShapeConcat b ↔ ∃ cs : List Nat, (∀ n ∈ cs, isScalar n = true) ∧ cs.flatMap encodeScalar = b := by
  constructor
  · rintro ⟨parts, hparts, rfl⟩
    induction parts with
    | nil => exact ⟨[], List.forall_mem_nil _, rfl⟩
    | cons p ps ih =>
      obtain ⟨hp, hps⟩ := List.forall_mem_cons.mp hparts
      obtain ⟨n, hn, rfl⟩ := exists_scalar_of_isShape hp
      obtain ⟨cs, hcs, hflat⟩ := ih hps
      exact ⟨n :: cs, List.forall_mem_cons.mpr ⟨hn, hcs⟩, by rw [List.flatMap_cons, hflat, List.flatten_cons]⟩
  · rintro ⟨cs, hcs, rfl⟩
    refine ⟨cs.map encodeScalar, ?_, rfl⟩
    rw [List.forall_mem_map]
    exact fun n hn => isShape_encodeScalar (hcs n hn)

/-- Settles O20: accepted buffers by their sequences, and a sequence is an encoding; `is_well_formed` is acceptance. -/
theorem wellFormedIsScalarEncodings : Obligations.WellFormedIsScalarEncodings := by
  intro b
  have haccept := (fsmAcceptsShapeConcats b).trans (isShapeConcat_iff b)
  exact ⟨haccept, (validate_fst_iff b).trans haccept⟩

end Sys2Proof.Machine
end

section
/-! Streams (spec/44_streaming.md R189): a stream fed in pieces is one run of the FSM, carried from piece to piece in
the Stream State. -/

namespace Sys2Proof.Machine

/-! ## One piece -/

/-- What a streaming call answers, in the registers after `END` (R184). -/
def Regs.streamResult {w : Nat} (r : Regs w) : StreamResult := ⟨r.rErr, r.rLen.toNat, r.ss⟩

theorem runChunk_of_next {s t : State} {c : List Byte} {f : Bool} (h : runTx (.schk 0 f) c s = .next t) :
    runChunk c f s = some t := by rw [runChunk, h]

/-- R186 with what the next call needs: the machine is in `IDLE` again, at the same width. -/
theorem runChunk_of_idle {s : State} (hidle : s.regs.ph = .idle) {c : List Byte} (hlen : c.length ≤ 2 ^ s.lenw - 1)
    (f : Bool) :
    ∃ t, runChunk c f s = some t ∧ t.lenw = s.lenw ∧ t.regs.ph = .idle ∧
      t.regs.streamResult = streamCheck s.regs.ss c f := by
  obtain ⟨n, hfeed, -⟩ := feed_opened Config.fastpath c (m := opSCHK) rfl s.regs.ss f s.regs
  have hrun := runTx_of_idle (decodeBeat_encode_schk 0 f) rfl hidle hfeed
  rw [endBeat_of_open _ (scanned_ph_ne_idle _ _ _) _ (endResult_of_schk rfl)] at hrun
  refine ⟨_, runChunk_of_next hrun, rfl, rfl, resultSchk_scanned s.regs f n hlen⟩

section
variable (ss : Code) {c : List Byte} (hc : c ≠ []) (f : Bool)
include hc

/-- A non-empty piece is in error when it breaks a sequence, or is the last and leaves one pending. -/
theorem streamCheck_err_iff :
    (streamCheck ss c f).err = true ↔ runDelta ss c = ERR ∨ (f = true ∧ runDelta ss c ≠ ACC) := by
  rw [streamCheck_of_nonempty ss (mt List.length_eq_zero_iff.mp hc), stateAt_length]
  split_ifs with herr hacc hf
  · exact iff_of_true rfl (.inl herr)
  · exact iff_of_false nofun (not_or.mpr ⟨herr, fun h => h.2 hacc⟩)
  · exact iff_of_true rfl (.inr ⟨hf, hacc⟩)
  · exact iff_of_false nofun (not_or.mpr ⟨herr, fun h => hf h.1⟩)

/-- The last piece leaves nothing pending. -/
theorem streamCheck_ss_of_final : (streamCheck ss c true).ss = ACC := by
  rw [streamCheck_of_nonempty ss (mt List.length_eq_zero_iff.mp hc)]
  rw [if_pos (rfl : true = true)]
  split_ifs <;> rfl

/-- Without an error the Stream State is the state of the run, and the length is the last Accept point, whether or not
a sequence is pending. -/
theorem streamCheck_of_no_err (h : (streamCheck ss c f).err = false) :
    (streamCheck ss c f).ss = runDelta ss c ∧ (streamCheck ss c f).len = lastAccept ss c c.length := by
  rw [streamCheck_of_nonempty ss (mt List.length_eq_zero_iff.mp hc)] at h ⊢
  split_ifs at h ⊢ with herr hacc hf
  · exact ⟨hacc.symm.trans (stateAt_length ss c), (lastAccept_of_accept hacc).symm⟩
  · exact ⟨stateAt_length ss c, rfl⟩

end

/-! ## Piece by piece -/

/-- A stream is its first piece, final if it is the only one, and the stream of the rest from where that piece ends. -/
theorem runStream_cons {s t : State} {c : List Byte} {rest : List (List Byte)}
    (h : runChunk c rest.isEmpty s = some t) :
    runStream s (c :: rest) = (runStream t rest).map (fun ts => t :: ts) := by
  cases rest with
  | nil =>
    have hfinal : runChunk c true s = some t := h
    simp only [runStream, hfinal, Option.map_some]
  | cons d rest =>
    have hmore : runChunk c false s = some t := h
    simp only [runStream, hmore]

/-- R189, the verdict, from any Stream State: an error shows that the run over all the pieces does not end in `ACC`. -/
theorem runStream_verdict {s : State} {pieces : List (List Byte)} (hidle : s.regs.ph = .idle)
    (hempty : pieces = [] → s.regs.ss = ACC) (hpieces : ∀ c ∈ pieces, c ≠ [] ∧ c.length ≤ 2 ^ s.lenw - 1) :
    ∃ ts, runStream s pieces = some ts ∧ ts.length = pieces.length ∧
      ((∃ t ∈ ts, t.regs.rErr = true) ↔ runDelta s.regs.ss pieces.flatten ≠ ACC) ∧
      ((∀ t ∈ ts, t.regs.rErr = false) → (ts.getLastD s).regs.ss = ACC) := by
  induction pieces generalizing s with
  | nil => exact ⟨[], rfl, rfl, by simp [hempty rfl], fun _ => hempty rfl⟩
  | cons c rest ih =>
    obtain ⟨⟨hc, hlen⟩, hrest⟩ := List.forall_mem_cons.mp hpieces
    obtain ⟨t, hchunk, hwidth, hph, hres⟩ := runChunk_of_idle hidle hlen rest.isEmpty
    have herr : t.regs.rErr = (streamCheck s.regs.ss c rest.isEmpty).err := congrArg StreamResult.err hres
    have hss : t.regs.ss = (streamCheck s.regs.ss c rest.isEmpty).ss := congrArg StreamResult.ss hres
    have hiff := streamCheck_err_iff s.regs.ss hc rest.isEmpty
    rw [List.isEmpty_iff] at hiff
    have hlast : rest = [] → t.regs.ss = ACC := by
      rintro rfl
      exact hss.trans (streamCheck_ss_of_final s.regs.ss hc)
    obtain ⟨ts, hts, hcount, hverdict, hend⟩ := ih hph hlast (by rwa [hwidth])
    refine ⟨t :: ts, by rw [runStream_cons hchunk, hts]; rfl, congrArg Nat.succ hcount, ?_, fun hok => ?_⟩
    · rw [List.exists_mem_cons_iff, hverdict, List.flatten_cons, runDelta_append, herr]
      cases he : (streamCheck s.regs.ss c rest.isEmpty).err with
      | true =>
        refine iff_of_true (.inl rfl) ?_
        obtain hbroken | ⟨rfl, hpending⟩ := hiff.mp he
        · rw [hbroken, runDelta_ERR]; decide
        · exact hpending
      | false =>
        rw [hss, (streamCheck_of_no_err _ hc _ he).1]
        exact or_iff_right Bool.false_ne_true
    · rw [List.getLastD_cons]
      exact hend (List.forall_mem_cons.mp hok).2

/-- Settles O54: `check` of the concatenation is valid exactly when the run over it ends in `ACC`. -/
theorem streamVerdictEqualsSingleShot : Obligations.StreamVerdictEqualsSingleShot := by
  intro s pieces hidle hacc hpieces
  obtain ⟨ts, hts, hcount, hverdict, hend⟩ := runStream_verdict hidle (fun _ => hacc) hpieces
  refine ⟨ts, hts, hcount, ?_, hend⟩
  rw [hverdict, hacc, ← Bool.not_eq_true, validate_fst_iff]

/-! ## The lengths -/

/-- The last Accept point within the bytes that follow `a`, counted from there. -/
theorem lastAccept_append_sub (a c : List Byte) (k : Nat) :
    lastAccept ACC (a ++ c) (a.length + k) - a.length = lastAccept (runDelta ACC a) c k := by
  have hstate (j : Nat) : stateAt ACC (a ++ c) (a.length + j) = stateAt (runDelta ACC a) c j := by
    rw [stateAt_add, stateAt_append_of_le le_rfl, stateAt_length, List.drop_left, stateAt]
  induction k with
  | zero => exact Nat.sub_eq_zero_of_le (lastAccept_le _ _ _)
  | succ k ih =>
    by_cases hacc : stateAt (runDelta ACC a) c (k + 1) = ACC
    · rw [lastAccept_of_accept hacc, lastAccept_of_accept ((hstate (k + 1)).trans hacc), Nat.add_sub_cancel_left]
    · have hacc' : stateAt ACC (a ++ c) (a.length + k + 1) ≠ ACC := (hstate (k + 1)).trans_ne hacc
      rw [lastAccept_succ_of_ne hacc, ← Nat.add_assoc, lastAccept_succ_of_ne hacc', ih]

/-- R189, the counts, when the pieces before are `a`: a piece without an error reports the last Accept point of the
stream so far. -/
theorem runStream_rLen {s : State} {pieces : List (List Byte)} {ts : List State} {a : List Byte}
    (hidle : s.regs.ph = .idle) (hss : s.regs.ss = runDelta ACC a)
    (hpieces : ∀ c ∈ pieces, c ≠ [] ∧ c.length ≤ 2 ^ s.lenw - 1) (hrun : runStream s pieces = some ts)
    (hok : ∀ t ∈ ts, t.regs.rErr = false) {k : Nat} {t : State} (hk : ts[k]? = some t) :
    t.regs.rLen.toNat =
      lastAccept ACC (a ++ pieces.flatten) (a ++ (pieces.take (k + 1)).flatten).length -
        (a ++ (pieces.take k).flatten).length := by
  induction pieces generalizing s ts a k with
  | nil => cases hrun; cases hk
  | cons c rest ih =>
    obtain ⟨⟨hc, hlen⟩, hrest⟩ := List.forall_mem_cons.mp hpieces
    obtain ⟨u, hchunk, hwidth, hph, hres⟩ := runChunk_of_idle hidle hlen rest.isEmpty
    rw [runStream_cons hchunk] at hrun
    obtain ⟨us, hus, rfl⟩ := Option.map_eq_some_iff.mp hrun
    obtain ⟨hokU, hokUs⟩ := List.forall_mem_cons.mp hok
    obtain ⟨hssU, hlenU⟩ := streamCheck_of_no_err s.regs.ss hc rest.isEmpty
      ((congrArg StreamResult.err hres).symm.trans hokU)
    rw [← hres] at hssU hlenU
    rw [List.flatten_cons, ← List.append_assoc]
    cases k with
    | zero =>
      cases hk
      rw [List.take_succ_cons, List.take_zero, List.take_zero, List.flatten_cons, List.flatten_nil, List.append_nil,
        List.append_nil, lastAccept_append_of_le le_rfl, List.length_append, lastAccept_append_sub, ← hss]
      exact hlenU
    | succ k =>
      rw [List.take_succ_cons, List.take_succ_cons, List.flatten_cons, List.flatten_cons, ← List.append_assoc,
        ← List.append_assoc]
      exact ih hph (by rw [runDelta_append, ← hss]; exact hssU) (by rwa [hwidth]) hus hokUs hk

/-- Settles O55: from `ACC` with nothing before; an error-free stream ends at an Accept point, so its last piece reports
its whole length. -/
theorem streamLengthsLocatePendingSequence : Obligations.StreamLengthsLocatePendingSequence := by
  intro s pieces ts hidle hacc hpieces hrun hok
  have hlens {k : Nat} {t : State} (hk : ts[k]? = some t) := runStream_rLen (a := []) hidle hacc hpieces hrun hok hk
  refine ⟨fun k t hk => hlens hk, fun k t c hlast hk hc => ?_⟩
  obtain ⟨ts', hrun', -, hverdict, -⟩ := runStream_verdict hidle (fun _ => hacc) hpieces
  obtain rfl : ts = ts' := Option.some.inj (hrun.symm.trans hrun')
  have hvalid : runDelta ACC pieces.flatten = ACC := by
    by_contra hne
    obtain ⟨u, hu, herr⟩ := hverdict.mpr (by rwa [hacc])
    exact Bool.false_ne_true ((hok u hu).symm.trans herr)
  have hall : pieces.take (k + 1) = pieces := List.take_of_length_le hlast.ge
  have hlength : pieces.flatten.length = (pieces.take k).flatten.length + c.length := by
    conv_lhs => rw [← hall, List.take_add_one, hc]
    simp
  rw [hlens hk, hall, List.nil_append, List.nil_append, lastAccept_of_accept ((stateAt_length _ _).trans hvalid),
    hlength, Nat.add_sub_cancel_left]

end Sys2Proof.Machine
end
